-- ==== Sys2Proof/Word.lean ====
section
/-! DEFINITION. The word type of the engine: every datum is a 64-bit unsigned integer (00_scope.md R7).
`+` on words is modulo 2^64 and `<`, `≤` compare unsigned values, as 00_scope.md R13 asks. -/

namespace Sys2Proof

/-- A 64-bit datum or register (00_scope.md R7). -/
abbrev Word := BitVec 64

/-- One byte lane of the bus (20_memory.md R58). -/
abbrev Byte := BitVec 8

end Sys2Proof
end

