-- ==== Sys2Proof/Config.lean ====
section
/-! DEFINITION. The open parameters of the hardware. None has a body a proof could use: whatever is
proved holds for every choice. The datapath takes them as one argument `Params`, so that a claim can
quantify over every `MIX` and `ROUND_F`, and `Config.hardware` is this chip's own. -/

namespace Sys2Proof

/-- The two open functions of the engine: the mix core `MIX(key_lo, key_hi, x)` (00_scope.md R9) and
the round function `ROUND_F(key, r)` (00_scope.md R10). Nothing relates one to the other
(90_conflicts.md C4). -/
structure Params where
  mix    : Word → Word → Word → Word
  roundF : Word → Word → Word

/-- The chip's mix core, a total function and nothing more (R9, D6). See log entry 1. -/
opaque Config.MIX : Word → Word → Word → Word

/-- The chip's round function, a total function and nothing more (R10, D7). See log entry 2. -/
opaque Config.ROUND_F : Word → Word → Word

/-- The address of the register window in the system, the platform's choice (20_memory.md R50, I18).
See log entry 3. -/
opaque Config.engineBase : Nat

/-- The functions of this chip. -/
def Config.hardware : Params := { mix := Config.MIX, roundF := Config.ROUND_F }

end Sys2Proof
end

