-- ==== Sys2Proof/Syntax.lean ====
section
/-! DEFINITION. The commands of command set version 1 (30_encoding.md R84), one constructor per row
of the opcode table, and the reasons for which a command word is ILLEGAL (R85). -/

namespace Sys2Proof

/-- A legal command. LB and RB are the widths carried in a FEISTEL word (R82), natural numbers that
`Instr.wf` bounds to their 7-bit fields. -/
inductive Instr where
  /-- OP 0x0: no state changes (40_command.md R107). -/
  | nop
  /-- OP 0x1: the mix core (41_mix.md R124). -/
  | mix
  /-- OP 0x2: the 4-round permutation with widths LB and RB (42_feistel.md R144). -/
  | feistel (lb rb : Nat)
  /-- OP 0x3: the cycle walk (43_cycle_walk.md R173). -/
  | fpe
  deriving DecidableEq, Repr

/-- Why a command word decodes as ILLEGAL (R85). The hardware does not tell the reasons apart
(60_exceptions.md R201); see log entry 19. -/
inductive Reject where
  /-- One of bits 7:4, 15 or 63:23 is set (R83). -/
  | reservedBit
  /-- OP is 0x4 to 0xF (R87). -/
  | reservedOpcode
  /-- LB or RB is nonzero in a NOP, MIX or FPE word (R84). -/
  | widthNotZero
  deriving DecidableEq, Repr

end Sys2Proof
end

