-- ==== Sys2Proof/WellFormed.lean ====
section
/-! DEFINITION. Which terms of `Instr` a command word can carry: LB and RB are 7-bit fields
(30_encoding.md R82). A value FEISTEL cannot take is still well formed; acceptance checks it (R145). -/

namespace Sys2Proof

/-- LB and RB fit their 7-bit fields (R82). -/
def Instr.wf : Instr → Bool
  | .nop => true
  | .mix => true
  | .feistel lb rb => decide (lb < 128) && decide (rb < 128)
  | .fpe => true

end Sys2Proof
end

