-- ==== Sys2Proof/Decode.lean ====
section
/-! DEFINITION. The decoder of command words (30_encoding.md R85), total on every 64-bit word and
rejecting by name, and the encoder written from the same format (R80). A command is exactly one word
(R88), so there is no byte stream to decode. -/

namespace Sys2Proof

/-- OP, bits 3:0 (R81). -/
def opField (v : Word) : Nat := (v.extractLsb' 0 4).toNat

/-- LB, bits 14:8 (R82). -/
def lbField (v : Word) : Nat := (v.extractLsb' 8 7).toNat

/-- RB, bits 22:16 (R82). -/
def rbField (v : Word) : Nat := (v.extractLsb' 16 7).toNat

/-- A reserved bit is set: bits 7:4, 15 or 63:23 (R83). -/
def reservedSet (v : Word) : Bool :=
  v.extractLsb' 4 4 != 0 || v.getLsbD 15 || v.extractLsb' 23 41 != 0

/-- A command without widths in its word: LB and RB must be 0 (R84). -/
def withoutWidths (v : Word) (i : Instr) : Except Reject Instr :=
  if lbField v = 0 ∧ rbField v = 0 then .ok i else .error .widthNotZero

/-- `Decode(v)` of R85; an error is ILLEGAL. -/
def decode (v : Word) : Except Reject Instr :=
  if reservedSet v then .error .reservedBit
  else
    match opField v with
    | 0 => withoutWidths v .nop
    | 1 => withoutWidths v .mix
    | 2 => .ok (.feistel (lbField v) (rbField v))
    | 3 => withoutWidths v .fpe
    | _ => .error .reservedOpcode

/-- The command word with opcode `op` and widths `lb`, `rb`; every reserved bit is 0 (R80). -/
def commandWord (op lb rb : Nat) : Word :=
  BitVec.ofNat 64 op ||| (BitVec.ofNat 64 lb <<< 8) ||| (BitVec.ofNat 64 rb <<< 16)

/-- The word of a well-formed command (R84, R92). -/
def encode : Instr → Word
  | .nop => commandWord 0 0 0
  | .mix => commandWord 1 0 0
  | .feistel lb rb => commandWord 2 lb rb
  | .fpe => commandWord 3 0 0

/-- The 64-bit word whose low `nbits` bits are `w`'s, numbered as the opcode table numbers them. -/
def tableWord (nbits w : Nat) : Word := BitVec.ofNat 64 (w % 2 ^ nbits)

/-- The command the decoder reads from a word given by the opcode table's bit numbers. -/
def decodeTableWord (nbits w : Nat) : Option Instr :=
  match decode (tableWord nbits w) with
  | .ok i => some i
  | .error _ => none

end Sys2Proof
end

