-- ==== Sys2Proof/Machine/State.lean ====
section
/-! DEFINITION. The state of the engine, as plain data: the host-visible registers (10_state.md R20),
the engine's internal state (R35), and the model's record of the bus: the inputs still to come and
the values reads returned. Reset values are R42's. -/

namespace Sys2Proof.Machine

/-- A host access to the register window, as it appears on the bus: any offset and any width may be
tried (20_memory.md R54, R55). -/
inductive Access where
  /-- A read of `width` bytes at byte offset `off` (R56). -/
  | read (off width : Nat)
  /-- A write of `width` bytes at byte offset `off` (R57); see log entry 17 for `v` at other widths. -/
  | write (off width : Nat) (v : Word)
  deriving DecidableEq, Repr

/-- What may happen next at the engine (20_memory.md R64, R66; 70_reset_and_hazards.md R230). -/
inductive Event where
  /-- A host access. -/
  | access (a : Access)
  /-- The engine agent's turn. -/
  | engine
  /-- The reset input is asserted. -/
  | resetAssert
  /-- The reset input is released. -/
  | resetRelease
  deriving DecidableEq, Repr

/-- The names of the host-visible registers (10_state.md R20). -/
inductive Reg where
  | cmd | status | ctrl | x | n | key | keyLo | keyHi | result | iter | walkLimit
  deriving DecidableEq, Repr

/-- The error codes that a completion can record (60_exceptions.md R200). -/
inductive ErrorCode where
  | illegalCmd | badWidth | nZero | inputRange | walkExhausted
  deriving DecidableEq, Repr

/-- STATUS without its reserved bits, which read 0 (10_state.md R22). -/
structure Status where
  busy    : Bool
  done    : Bool
  err     : Bool
  ovr     : Bool
  errcode : BitVec 4
  deriving DecidableEq, Repr

/-- The host-visible registers (10_state.md R20). CMD holds no state (R21); of CTRL only IE is
stored, the other bits read 0 (R29). -/
structure Regs where
  status    : Status
  ie        : Bool
  x         : Word
  n         : Word
  key       : Word
  keyLo     : Word
  keyHi     : Word
  result    : Word
  iter      : Word
  walkLimit : Word
  deriving DecidableEq, Repr

/-- The engine's control state (10_state.md R36). -/
inductive Fsm where
  | idle | mixing | rounds | ident
  deriving DecidableEq, Repr

/-- The running command (10_state.md R35). -/
inductive Op where
  | mix | feistel | fpe
  deriving DecidableEq, Repr

/-- The engine's internal state, field by field as 10_state.md R35 lists it. -/
structure Engine where
  fsm   : Fsm
  op    : Op
  x     : Word
  n     : Word
  k     : Word
  klo   : Word
  khi   : Word
  limit : Word
  lb    : Nat
  rb    : Nat
  w     : Word
  round : Nat
  iter  : Word
  deriving DecidableEq, Repr

/-- The model's own record of the engine's pins; no rule reads it (log entries 4, 5 and 7). -/
structure Bus where
  /-- What happens next, oldest first. -/
  agenda  : List Event
  /-- The values that host reads returned, newest first. -/
  reads   : List Word
  /-- The reset input is asserted. -/
  resetIn : Bool
  deriving DecidableEq, Repr

/-- The state of the machine. -/
structure State where
  regs : Regs
  eng  : Engine
  bus  : Bus
  deriving DecidableEq, Repr

/-- Why the machine stops with a fault. -/
inductive Fault where
  /-- Raised by `hostAccess` for an access that is not an aligned 8-byte access inside the window
  (60_exceptions.md R206). Safe: the hardware refuses the access and goes on, the model stops. -/
  | busError (a : Access)
  deriving DecidableEq, Repr

/-- Why the machine has no answer. -/
inductive Refusal where
  /-- Raised by an arm of `exec` whose instruction has no meaning yet; no arm raises it. Safe. -/
  | notModelled (mnemonic : String)
  /-- Raised by `runEvent` for a host access while reset is asserted, for which the spec defines no
  result (70_reset_and_hazards.md R232, I16). Safe: the model stops. -/
  | accessDuringReset (a : Access)
  deriving DecidableEq, Repr

/-- Every register at its reset value (10_state.md R42). -/
def Regs.reset : Regs :=
  { status := { busy := false, done := false, err := false, ovr := false, errcode := 0 }
    ie := false, x := 0, n := 0, key := 0, keyLo := 0, keyHi := 0
    result := 0, iter := 0, walkLimit := 0 }

/-- The engine's internal state at reset (10_state.md R42). See log entry 9. -/
def Engine.reset : Engine :=
  { fsm := .idle, op := .mix, x := 0, n := 0, k := 0, klo := 0, khi := 0, limit := 0
    lb := 0, rb := 0, w := 0, round := 0, iter := 0 }

/-- The machine right after reset: R42, nothing pending on the bus, the reset input released. -/
def State.reset : State :=
  { regs := .reset, eng := .reset, bus := { agenda := [], reads := [], resetIn := false } }

/-- Replace the host-visible registers. -/
def State.withRegs (s : State) (r : Regs) : State := { s with regs := r }

/-- Replace the STATUS fields. -/
def State.withStatus (s : State) (st : Status) : State :=
  { s with regs := { s.regs with status := st } }

/-- Replace the internal state. -/
def State.withEng (s : State) (e : Engine) : State := { s with eng := e }

/-- Replace the events still to come. -/
def State.withAgenda (s : State) (evs : List Event) : State :=
  { s with bus := { s.bus with agenda := evs } }

/-- Record the value a host read returned. -/
def State.reply (s : State) (v : Word) : State :=
  { s with bus := { s.bus with reads := v :: s.bus.reads } }

/-- Set the level of the reset input. -/
def State.withResetIn (s : State) (b : Bool) : State :=
  { s with bus := { s.bus with resetIn := b } }

end Sys2Proof.Machine
end

