-- ==== Sys2Proof/Machine/Flags.lean ====
section
/-! DEFINITION. The STATUS fields and CTRL.IE: the codes of ERRCODE (60_exceptions.md R200), STATUS as
a word (20_memory.md R56), write-1-to-clear (10_state.md R28), and the interrupt output (R38). -/

namespace Sys2Proof.Machine

/-- The value of ERRCODE for an error (R200). -/
def ErrorCode.code : ErrorCode → BitVec 4
  | .illegalCmd => 1
  | .badWidth => 2
  | .nZero => 3
  | .inputRange => 4
  | .walkExhausted => 5

/-- A flag as a 64-bit value, zero-extended. -/
def flagWord (b : Bool) : Word := if b then 1 else 0

/-- STATUS as a host read returns it: ERRCODE in bits 11:8, OVR 3, ERR 2, DONE 1, BUSY 0, every other
bit 0 (R22, R56). -/
def statusWord (st : Status) : Word :=
  (st.errcode.zeroExtend 64 <<< 8) ||| (flagWord st.ovr <<< 3) ||| (flagWord st.err <<< 2)
    ||| (flagWord st.done <<< 1) ||| flagWord st.busy

/-- The STATUS fields after a host write of `v`: bits 1, 2 and 3 clear DONE, ERR and OVR; BUSY,
ERRCODE and the reserved bits are not written (R28). -/
def statusAfterWrite (v : Word) (st : Status) : Status :=
  { st with
    done := st.done && !v.getLsbD 1
    err := st.err && !v.getLsbD 2
    ovr := st.ovr && !v.getLsbD 3 }

/-- `StatusWrite(v)`, the acknowledgement of a completion (R28, R214). -/
def statusWrite (v : Word) (s : State) : State := s.withStatus (statusAfterWrite v s.regs.status)

/-- CTRL as a host read returns it: IE in bit 0, the rest 0 (R29). -/
def ctrlWord (r : Regs) : Word := flagWord r.ie

/-- A host write of CTRL: only bit 0 is stored (R29, R57). -/
def ctrlWrite (v : Word) (s : State) : State := s.withRegs { s.regs with ie := v.getLsbD 0 }

/-- The interrupt output, a level that is not stored (R38, R208). -/
def irq (s : State) : Bool := s.regs.ie && s.regs.status.done

end Sys2Proof.Machine
end

