-- ==== Sys2Proof/Machine/Operands.lean ====
section
/-! DEFINITION. The operands of the commands: the registers latched at acceptance (40_command.md R103),
the legality of FEISTEL's widths (42_feistel.md R145), and the operand registers' window offsets
(10_state.md R20). -/

namespace Sys2Proof.Machine

/-- `Latch()`: copy every operand register into the engine (R103). -/
def latch (s : State) : State :=
  s.withEng { s.eng with
    x := s.regs.x, n := s.regs.n, k := s.regs.key
    klo := s.regs.keyLo, khi := s.regs.keyHi, limit := s.regs.walkLimit }

/-- FEISTEL's contract on the widths in the word: `1 ≤ lb`, `1 ≤ rb`, `lb + rb ≤ 64` (R145). -/
def widthsLegal (lb rb : Nat) : Bool := decide (1 ≤ lb) && decide (1 ≤ rb) && decide (lb + rb ≤ 64)

/-- The byte offset of a register in the window (R20, R52). -/
def Reg.offset : Reg → Nat
  | .cmd => 0x00
  | .status => 0x08
  | .ctrl => 0x10
  | .x => 0x18
  | .n => 0x20
  | .key => 0x28
  | .keyLo => 0x30
  | .keyHi => 0x38
  | .result => 0x40
  | .iter => 0x48
  | .walkLimit => 0x50

/-- The register whose slot starts at byte offset `off`; none for the reserved slots (R52, R53). -/
def Reg.atOffset (off : Nat) : Option Reg :=
  match off with
  | 0x00 => some .cmd
  | 0x08 => some .status
  | 0x10 => some .ctrl
  | 0x18 => some .x
  | 0x20 => some .n
  | 0x28 => some .key
  | 0x30 => some .keyLo
  | 0x38 => some .keyHi
  | 0x40 => some .result
  | 0x48 => some .iter
  | 0x50 => some .walkLimit
  | _ => none

end Sys2Proof.Machine
end

