-- ==== Sys2Proof/Machine/Ops.lean ====
section
/-! DEFINITION. The shared operations of every command: acceptance and completion (40_command.md R101 to
R108), and the register window's reads and plain writes (20_memory.md R54 to R58). `completeError`
is the engine's analogue of taking an exception (60_exceptions.md R212); the return beside it is
`statusWrite` (R214). -/

namespace Sys2Proof.Machine

/-- `complete_ok(v, it)`: end the command without error (R105). -/
def completeOk (v it : Word) (s : State) : State :=
  { s with
    regs := { s.regs with
      result := v, iter := it
      status := { s.regs.status with errcode := 0, err := false, done := true, busy := false } }
    eng := { s.eng with fsm := .idle } }

/-- `complete_error(code, it)`: end the command with an error; RESULT is not written (R106). -/
def completeError (c : ErrorCode) (it : Word) (s : State) : State :=
  { s with
    regs := { s.regs with
      iter := it
      status := { s.regs.status with errcode := c.code, err := true, done := true, busy := false } }
    eng := { s.eng with fsm := .idle } }

/-- `Accept()`: clear DONE, ERR and ERRCODE and latch the operands; OVR, RESULT and ITER keep their
values (R101). -/
def accept (s : State) : State :=
  latch (s.withStatus { s.regs.status with done := false, err := false, errcode := 0 })

/-- Start the command `op` in control state `phase`: BUSY is set (R102). -/
def startRunning (op : Op) (phase : Fsm) (s : State) : State :=
  { s with
    regs := { s.regs with status := { s.regs.status with busy := true } }
    eng := { s.eng with op := op, fsm := phase } }

/-- Load the round datapath with a block and its widths (R145, R174). -/
def loadRounds (lb rb : Nat) (s : State) : State :=
  s.withEng { s.eng with lb := lb, rb := rb, w := s.eng.x, round := 0, iter := 0 }

/-- A CMD write while BUSY is 1: the word is lost and OVR is set, nothing else changes (R108). -/
def lostCommand (s : State) : State := s.withStatus { s.regs.status with ovr := true }

/-- The effect of presenting a command whose effect on an idle engine is `act` (R100). -/
def present (act : State → State) (s : State) : State :=
  if s.regs.status.busy then lostCommand s else act s

/-- The value of register `r` on a host read (R56). CMD is write-only and reads 0 (R21). -/
def readReg (r : Reg) (x : Regs) : Word :=
  match r with
  | .cmd => 0
  | .status => statusWord x.status
  | .ctrl => ctrlWord x
  | .x => x.x
  | .n => x.n
  | .key => x.key
  | .keyLo => x.keyLo
  | .keyHi => x.keyHi
  | .result => x.result
  | .iter => x.iter
  | .walkLimit => x.walkLimit

/-- What a legal host read at offset `off` returns; the reserved slots read 0 (R53, R56). -/
def readWindow (x : Regs) (off : Nat) : Word :=
  match Reg.atOffset off with
  | some r => readReg r x
  | none => 0

/-- The byte lane at byte offset `a` of the window, little-endian (R58). -/
def windowByte (x : Regs) (a : Nat) : Byte :=
  (readWindow x (a / 8 * 8)).extractLsb' (a % 8 * 8) 8

/-- The window offset of a system address, if it lies in the window at ENGINE_BASE (R50). -/
def windowOffset (address : Nat) : Option Nat :=
  if Config.engineBase ≤ address ∧ address < Config.engineBase + 0x80 then
    some (address - Config.engineBase)
  else none

/-- A host write of `v` to a register other than CMD (R57). RESULT and ITER are read-only; CMD is
written by `command`. -/
def writeReg (r : Reg) (v : Word) (s : State) : State :=
  match r with
  | .cmd => s
  | .status => statusWrite v s
  | .ctrl => ctrlWrite v s
  | .x => s.withRegs { s.regs with x := v }
  | .n => s.withRegs { s.regs with n := v }
  | .key => s.withRegs { s.regs with key := v }
  | .keyLo => s.withRegs { s.regs with keyLo := v }
  | .keyHi => s.withRegs { s.regs with keyHi := v }
  | .result => s
  | .iter => s
  | .walkLimit => s.withRegs { s.regs with walkLimit := v }

/-- An aligned 8-byte access inside the window (R54, R55). -/
def legalAt (off width : Nat) : Bool :=
  decide (width = 8) && decide (off % 8 = 0) && decide (off < 0x80)

/-- The bus does not refuse the access (R54, R55, R206). -/
def Access.legal : Access → Bool
  | .read off width => legalAt off width
  | .write off width _ => legalAt off width

/-- Everything the spec gives the machine at its reset value, as one step; the bus's own record
stays (70_reset_and_hazards.md R230). -/
def applyReset (s : State) : State := { s with regs := .reset, eng := .reset }

end Sys2Proof.Machine
end

