-- ==== Sys2Proof/Machine/Feistel.lean ====
section
/-! DEFINITION. FEISTEL (42_feistel.md R144, R145): its acceptance. Its round step is shared with FPE and
stands in Machine/EngineStep.lean. -/

namespace Sys2Proof.Machine

/-- `AcceptFeistel(lb, rb)`: BAD_WIDTH outside the contract, otherwise the rounds begin (R145). -/
def acceptFeistel (lb rb : Nat) (s : State) : State :=
  if widthsLegal lb rb then startRunning .feistel .rounds (loadRounds lb rb s)
  else completeError .badWidth 0 s

/-- FEISTEL: acceptance in the CMD write (R100, R144). -/
def execFeistel (lb rb : Nat) (s : State) : Host.Outcome State Fault Refusal :=
  .next (present (fun s => acceptFeistel lb rb (accept s)) s)

end Sys2Proof.Machine
end

