-- ==== Sys2Proof/Machine/Datapath.lean ====
section
/-! DEFINITION. The engine's arithmetic as pure functions: MASK and CLOG2 (00_scope.md R14, R15), the
Feistel round and the 4-round permutation (42_feistel.md R141, R142), their inverse as a law
(R150), and the domain descriptor (43_cycle_walk.md R170). Each takes `ROUND_F` as an argument. -/

namespace Sys2Proof.Machine

/-- `MASK(b)`: the low `b` bits set (R14); `MASK(0) = 0`. -/
def mask (b : Nat) : Word := BitVec.ofNat 64 (2 ^ b - 1)

/-- `CLOG2(n)` for `1 ≤ n < 2^64`: the least `b` with `2^b ≥ n` (R15). -/
def clog2 (n : Nat) : Nat := ((List.range 65).find? (fun b => decide (n ≤ 2 ^ b))).getD 64

/-- `Widths(n)`: the left and right widths of the domain `[0, n)`, for `n ≥ 1` (R170). -/
def widths (n : Nat) : Nat × Nat :=
  let bits := clog2 n
  let lb := bits / 2
  (lb, bits - lb)

/-- `ROUND(w, lb, rb, k)`: one Feistel round (R141). -/
def feistelRound (F : Word → Word → Word) (w : Word) (lb rb : Nat) (k : Word) : Word :=
  let lmask := mask lb
  let rmask := mask rb
  let l := (w >>> rb) &&& lmask
  let r := w &&& rmask
  let t := (l ^^^ F k r) &&& lmask
  (r <<< lb) ||| (t &&& rmask)

/-- `m` rounds with the one round key (R154). -/
def feistelRounds (F : Word → Word → Word) (lb rb : Nat) (k : Word) : Nat → Word → Word
  | 0, w => w
  | m + 1, w => feistelRounds F lb rb k m (feistelRound F w lb rb k)

/-- `FEISTEL4(x, lb, rb, k)`: exactly four rounds, no final swap (R8, R142). -/
def feistel4 (F : Word → Word → Word) (x : Word) (lb rb : Nat) (k : Word) : Word :=
  feistelRounds F lb rb k 4 x

/-- `i` applications of the 4-round permutation. -/
def feistel4Iter (F : Word → Word → Word) (lb rb : Nat) (k : Word) : Nat → Word → Word
  | 0, w => w
  | i + 1, w => feistel4Iter F lb rb k i (feistel4 F w lb rb k)

/-- `ROUND_INV(u, lb, rb, k)`: a law for test purposes, not a command of the engine (R150). -/
def feistelRoundInv (F : Word → Word → Word) (u : Word) (lb rb : Nat) (k : Word) : Word :=
  let r := u >>> lb
  let t := u &&& mask lb
  let l := (t ^^^ F k r) &&& mask lb
  (l <<< rb) ||| r

/-- `m` inverse rounds. -/
def feistelRoundsInv (F : Word → Word → Word) (lb rb : Nat) (k : Word) : Nat → Word → Word
  | 0, u => u
  | m + 1, u => feistelRoundsInv F lb rb k m (feistelRoundInv F u lb rb k)

end Sys2Proof.Machine
end

