-- ==== Sys2Proof/Machine/Fpe.lean ====
section
/-! DEFINITION. FPE (43_cycle_walk.md R173 to R180): acceptance, the IDENT step, the walk's check after
each application, and the walk as one function of the latched operands. -/

namespace Sys2Proof.Machine

/-- `AcceptFpe()`: N_ZERO before INPUT_RANGE, then IDENT for `n = 1` or the rounds (R174). -/
def acceptFpe (s : State) : State :=
  if s.eng.n = 0 then completeError .nZero 0 s
  else if s.eng.n ≤ s.eng.x then completeError .inputRange 0 s
  else if s.eng.n = 1 then startRunning .fpe .ident s
  else
    startRunning .fpe .rounds
      (loadRounds (widths s.eng.n.toNat).1 (widths s.eng.n.toNat).2 s)

/-- FPE: acceptance in the CMD write (R100, R173). -/
def execFpe (s : State) : Host.Outcome State Fault Refusal :=
  .next (present (fun s => acceptFpe (accept s)) s)

/-- `StepIdent()`: the short circuit for `n = 1` (R175). -/
def stepIdent (s : State) : State := completeOk s.eng.x 0 s

/-- `WalkCheck()`: exit below `n`, exhaustion at the cap, otherwise another application (R177, R178). -/
def walkCheck (s : State) : State :=
  if s.eng.w < s.eng.n then completeOk s.eng.w s.eng.iter s
  else if s.eng.limit ≠ 0 ∧ s.eng.iter = s.eng.limit then
    completeError .walkExhausted s.eng.iter s
  else s

/-- The outcome of an FPE command: `Ok(v, i)` or `Error(c, i)` (R180). -/
inductive WalkOutcome where
  | ok (v it : Word)
  | error (c : ErrorCode) (it : Word)
  deriving DecidableEq, Repr

/-- The loop of R180 with a bound on its turns; `none` when the bound is used up. -/
def walkLoop (F : Word → Word → Word) (n k limit : Word) (lb rb : Nat) :
    Nat → Word → Word → Option WalkOutcome
  | 0, _, _ => none
  | fuel + 1, w, i =>
    let w' := feistel4 F w lb rb k
    let i' := i + 1
    if w' < n then some (.ok w' i')
    else if limit ≠ 0 ∧ i' = limit then some (.error .walkExhausted i')
    else walkLoop F n k limit lb rb fuel w' i'

/-- `FPEWALK(x, n, k, L)` (R180), its loop cut at R181's bound `2^bits − n + 1`. See log entry 12. -/
def fpeWalk (F : Word → Word → Word) (x n k limit : Word) : Option WalkOutcome :=
  if n = 0 then some (.error .nZero 0)
  else if n ≤ x then some (.error .inputRange 0)
  else if n = 1 then some (.ok x 0)
  else
    walkLoop F n k limit (widths n.toNat).1 (widths n.toNat).2
      (2 ^ clog2 n.toNat - n.toNat + 1) x 0

end Sys2Proof.Machine
end

