-- ==== Sys2Proof/Machine/Mix.lean ====
section
/-! DEFINITION. MIX (41_mix.md R122 to R124): its acceptance and its one engine step. -/

namespace Sys2Proof.Machine

/-- `AcceptMix()`: no check can fail (R122). -/
def acceptMix (s : State) : State := startRunning .mix .mixing s

/-- MIX: acceptance in the CMD write (R100, R124). -/
def execMix (s : State) : Host.Outcome State Fault Refusal :=
  .next (present (fun s => acceptMix (accept s)) s)

/-- `StepMix()`: the whole function in one engine step (R121, R123). -/
def stepMix (P : Params) (s : State) : State :=
  completeOk (P.mix s.eng.klo s.eng.khi s.eng.x) 0 s

end Sys2Proof.Machine
end

