-- ==== Sys2Proof/Machine/Nop.lean ====
section
/-! DEFINITION. NOP (40_command.md R107). -/

namespace Sys2Proof.Machine

/-- NOP: no state changes; written while busy it is lost like any word (R107, R108). -/
def execNop (s : State) : Host.Outcome State Fault Refusal := .next (present id s)

end Sys2Proof.Machine
end

