-- ==== Sys2Proof/Machine/Dispatch.lean ====
section
/-! DEFINITION. One arm per command: the effect of its CMD write (40_command.md R100). -/

namespace Sys2Proof.Machine

def exec (i : Instr) (s : State) : Host.Outcome State Fault Refusal :=
  match i with
  | .nop => Sys2Proof.Machine.execNop s
  | .mix => Sys2Proof.Machine.execMix s
  | .feistel lb rb => Sys2Proof.Machine.execFeistel lb rb s
  | .fpe => Sys2Proof.Machine.execFpe s

end Sys2Proof.Machine
end

