-- ==== Sys2Proof/Machine/EngineStep.lean ====
section
/-! DEFINITION. The engine agent's steps (20_memory.md R64): one per control state (10_state.md R36). -/

namespace Sys2Proof.Machine

/-- `StepRound()`: one Feistel round; the fourth one ends a FEISTEL command or checks the walk (R146). -/
def stepRound (P : Params) (s : State) : State :=
  let w := feistelRound P.roundF s.eng.w s.eng.lb s.eng.rb s.eng.k
  if s.eng.round < 3 then s.withEng { s.eng with w := w, round := s.eng.round + 1 }
  else
    let s' := s.withEng { s.eng with w := w, round := 0, iter := s.eng.iter + 1 }
    if s.eng.op = .feistel then completeOk w 0 s' else walkCheck s'

/-- The engine agent's step; an idle engine has none and keeps all its state (R36, R219). -/
def engineStep (P : Params) (s : State) : State :=
  match s.eng.fsm with
  | .idle => s
  | .mixing => stepMix P s
  | .rounds => stepRound P s
  | .ident => stepIdent s

/-- `m` engine steps in a row. -/
def engineSteps (P : Params) : Nat → State → State
  | 0, s => s
  | m + 1, s => engineSteps P m (engineStep P s)

end Sys2Proof.Machine
end

