-- ==== Sys2Proof/Machine/Bus.lean ====
section
/-! DEFINITION. What one host access does (20_memory.md R56, R57), the CMD write among them
(40_command.md R100), and what one event on the engine's pins does. -/

namespace Sys2Proof.Machine

/-- An ILLEGAL word: a command that completes at once with ILLEGAL_CMD (R86, R104). -/
def illegalCommand (s : State) : State := completeError .illegalCmd 0 (accept s)

/-- `Command(v)`: while BUSY the word is lost undecoded; otherwise it is decoded and presented (R100). -/
def command (v : Word) (s : State) : Host.Outcome State Fault Refusal :=
  if s.regs.status.busy then .next (lostCommand s)
  else
    match decode v with
    | .ok i => exec i s
    | .error _ => .next (illegalCommand s)

/-- `MemWrite` at a legal offset: CMD takes a command, every other slot is a plain write (R57). -/
def hostWrite (off : Nat) (v : Word) (s : State) : Host.Outcome State Fault Refusal :=
  match Reg.atOffset off with
  | some .cmd => command v s
  | some r => .next (writeReg r v s)
  | none => .next s

/-- One host access: refused with a bus error unless legal (R54, R55, R206); a read returns its value
to the host and changes no state of the engine (R56, R61). -/
def hostAccess (a : Access) (s : State) : Host.Outcome State Fault Refusal :=
  if a.legal then
    match a with
    | .read off _ => .next (s.reply (readWindow s.regs off))
    | .write off _ v => hostWrite off v s
  else .fault (.busError a)

/-- One event. A host access while reset is asserted has no defined result (R232). -/
def runEvent (P : Params) (ev : Event) (s : State) : Host.Outcome State Fault Refusal :=
  match ev with
  | .access a => if s.bus.resetIn then .refused (.accessDuringReset a) else hostAccess a s
  | .engine => .next (engineStep P s)
  | .resetAssert => .next ((applyReset s).withResetIn true)
  | .resetRelease => .next (s.withResetIn false)

/-- The first event of the agenda, taken off it; with none to come, only the engine moves (R66).
See log entries 4 and 16. -/
def runNext (P : Params) (s : State) : Host.Outcome State Fault Refusal :=
  match s.bus.agenda with
  | [] => .next (engineStep P s)
  | ev :: evs => runEvent P ev (s.withAgenda evs)

/-- A CMD write of the word `v` as the next thing to happen, with the reset input released. -/
def presentNext (v : Word) (s : State) : State :=
  (s.withResetIn false).withAgenda (.access (.write 0 8 v) :: s.bus.agenda)

end Sys2Proof.Machine
end

