-- ==== Sys2Proof/Machine/Step.lean ====
section
/-! DEFINITION. One step of the machine, of any chip and of this one, runs of them, and where the host
places the next command. -/

namespace Sys2Proof.Machine

/-- One step of a chip whose open functions are `P`. -/
def stepWith (P : Params) (s : State) : Host.Outcome State Fault Refusal := runNext P s

/-- One step of this chip. -/
def step (s : State) : Host.Outcome State Fault Refusal := stepWith Config.hardware s

/-- `m` steps, ending early at a fault or a refusal. -/
def runWith (P : Params) : Nat → State → Host.Outcome State Fault Refusal
  | 0, s => .next s
  | m + 1, s =>
    match stepWith P s with
    | .next s' => runWith P m s'
    | .fault r => .fault r
    | .refused r => .refused r

/-- The state whose next step presents the word `w` of the opcode table to CMD. See log entry 8. -/
def State.withFetchWord (s : State) (nbits w : Nat) : State := presentNext (tableWord nbits w) s

end Sys2Proof.Machine
end

