-- ==== Sys2Proof/Machine/Notation.lean ====
section
/-! DEFINITION. The transaction notation of the spec (30_encoding.md R90, R91) as lists of events. A wait
is given by the engine turns before each of its polls, so that every interleaving of the notation is
one list (20_memory.md R66). See log entry 20. -/

namespace Sys2Proof.Machine

/-- `wr REG, value` (R90). -/
def wr (r : Reg) (v : Word) : Event := .access (.write r.offset 8 v)

/-- `rd REG` (R90). -/
def rd (r : Reg) : Event := .access (.read r.offset 8)

/-- One poll of STATUS after `turns` engine turns. -/
def poll (turns : Nat) : List Event := List.replicate turns .engine ++ [rd .status]

/-- `wait`: polls of STATUS, each after some engine turns (R91). -/
def waitPolls (turns : List Nat) : List Event := turns.flatMap poll

/-- `ack`: clear DONE, ERR and OVR (R91). -/
def ack : Event := wr .status 0xE

/-- `run.mix klo, khi, x` (R91). -/
def runMix (klo khi x : Word) (turns : List Nat) : List Event :=
  [wr .keyLo klo, wr .keyHi khi, wr .x x, wr .cmd (encode .mix)] ++ waitPolls turns ++ [rd .result]

/-- `run.feistel x, lb, rb, k` (R91). -/
def runFeistel (x : Word) (lb rb : Nat) (k : Word) (turns : List Nat) : List Event :=
  [wr .x x, wr .key k, wr .cmd (encode (.feistel lb rb))] ++ waitPolls turns ++ [rd .result]

/-- `run.fpe x, n, k` (R91). -/
def runFpe (x n k : Word) (turns : List Nat) : List Event :=
  [wr .x x, wr .n n, wr .key k, wr .cmd (encode .fpe)] ++ waitPolls turns
    ++ [rd .status, rd .result, rd .iter]

end Sys2Proof.Machine
end

