-- ==== Sys2Proof/Safety.lean ====
section
/-! DEFINITION. The terms claims are stated in: the invariants that every step keeps (10_state.md R37 and
what else a running command's state means), events that a well-behaved host sends, and runs. -/

namespace Sys2Proof.Machine

/-- The structural invariant of the engine (10_state.md R37), whatever `MIX` and `ROUND_F` are. -/
structure Inv (s : State) : Prop where
  /-- R37 (a), R23. -/
  busy_iff_running : s.regs.status.busy = true ↔ s.eng.fsm ≠ .idle
  /-- R37 (b). -/
  done_not_busy : s.regs.status.done = true → s.regs.status.busy = false
  /-- Acceptance clears ERR and ERRCODE and only a completion sets them (R101, R105, R106). -/
  no_error_while_busy : s.regs.status.busy = true →
    s.regs.status.err = false ∧ s.regs.status.errcode = 0
  /-- R37 (c), as far as the host's clearing of ERR leaves it. -/
  error_has_code : s.regs.status.err = true → s.regs.status.errcode ≠ 0
  /-- Codes 6 to 15 are never produced (R200, I12). -/
  errcode_produced : s.regs.status.errcode.toNat ≤ 5
  /-- R37 (d). -/
  round_le : s.eng.round ≤ 3
  /-- The range of `e.lb` (R35). -/
  lb_le : s.eng.lb ≤ 64
  /-- The range of `e.rb` (R35). -/
  rb_le : s.eng.rb ≤ 64
  /-- Only MIX runs in MIXING (R122). -/
  mixing_op : s.eng.fsm = .mixing → s.eng.op = .mix
  /-- Only FPE with `n = 1`, so `x = 0`, runs in IDENT (R174, R175). -/
  ident_op : s.eng.fsm = .ident → s.eng.op = .fpe ∧ s.eng.n = 1 ∧ s.eng.x = 0
  /-- FEISTEL or FPE runs in ROUNDS (R36). -/
  rounds_op : s.eng.fsm = .rounds → s.eng.op = .feistel ∨ s.eng.op = .fpe
  /-- FEISTEL runs only with legal widths and before any application has finished (R145). -/
  feistel_rounds : s.eng.fsm = .rounds → s.eng.op = .feistel →
    1 ≤ s.eng.lb ∧ 1 ≤ s.eng.rb ∧ s.eng.lb + s.eng.rb ≤ 64 ∧ s.eng.iter = 0
  /-- R37 (e), and what acceptance checked (R174), and the block stays in the embedding domain (R147). -/
  fpe_rounds : s.eng.fsm = .rounds → s.eng.op = .fpe →
    s.eng.lb ≤ s.eng.rb ∧ s.eng.lb + s.eng.rb = clog2 s.eng.n.toNat ∧
    2 ≤ s.eng.n.toNat ∧ s.eng.x.toNat < s.eng.n.toNat ∧
    s.eng.w.toNat < 2 ^ (s.eng.lb + s.eng.rb)
  /-- While reset is asserted the machine holds its reset values (R230). -/
  reset_held : s.bus.resetIn = true → s.regs = .reset ∧ s.eng = .reset

/-- What the working block means while rounds run: it is the value after `e.iter` applications and
`e.round` further rounds of the latched input, and a walk goes on only while every finished
application landed at or above `n` and the cap is not reached (R146, R177). -/
structure WalkInv (P : Params) (s : State) : Prop where
  block_is_history : s.eng.fsm = .rounds →
    s.eng.w = feistelRounds P.roundF s.eng.lb s.eng.rb s.eng.k s.eng.round
      (feistel4Iter P.roundF s.eng.lb s.eng.rb s.eng.k s.eng.iter.toNat s.eng.x)
  outside_so_far : s.eng.fsm = .rounds → s.eng.op = .fpe → ∀ i, 1 ≤ i → i ≤ s.eng.iter.toNat →
    s.eng.n.toNat ≤ (feistel4Iter P.roundF s.eng.lb s.eng.rb s.eng.k i s.eng.x).toNat
  below_cap : s.eng.fsm = .rounds → s.eng.op = .fpe → s.eng.limit ≠ 0 →
    s.eng.iter.toNat < s.eng.limit.toNat

/-- An engine turn or an access that the bus does not refuse. -/
def Event.quiet : Event → Bool
  | .access a => a.legal
  | .engine => true
  | .resetAssert => false
  | .resetRelease => false

/-- A host's accesses are legal and none falls while reset is asserted (R206, R232), the reset input
starting at the level `resetIn`; reset edges and engine turns may fall anywhere. -/
def agendaLegal (resetIn : Bool) : List Event → Bool
  | [] => true
  | .access a :: evs => !resetIn && a.legal && agendaLegal resetIn evs
  | .engine :: evs => agendaLegal resetIn evs
  | .resetAssert :: evs => agendaLegal true evs
  | .resetRelease :: evs => agendaLegal false evs

/-- The number of engine turns among events. -/
def engineTurns (evs : List Event) : Nat := evs.count .engine

/-- `s` reaches `t` in some number of steps of the chip `P`. -/
def Reaches (P : Params) (s t : State) : Prop := ∃ m, runWith P m s = .next t

/-- No run from `s` ends in a fault or a refusal. -/
def SafeRun (P : Params) (s : State) : Prop := ∀ m, ∃ t, runWith P m s = .next t

/-- The operand registers, CTRL and WALK_LIMIT hold the same values: what only the host writes
(R29, R30, R33). -/
def SameHostWritten (r r' : Regs) : Prop :=
  r'.ie = r.ie ∧ r'.x = r.x ∧ r'.n = r.n ∧ r'.key = r.key ∧ r'.keyLo = r.keyLo ∧
    r'.keyHi = r.keyHi ∧ r'.walkLimit = r.walkLimit

/-- The latched operands are the values of the operand registers (R103). -/
def Latched (e : Engine) (r : Regs) : Prop :=
  e.x = r.x ∧ e.n = r.n ∧ e.k = r.key ∧ e.klo = r.keyLo ∧ e.khi = r.keyHi ∧ e.limit = r.walkLimit

/-- The engine turns an FPE command takes for an outcome: none after a failed check, one for `n = 1`,
four for each application of the walk (R187, R248). -/
def fpeTurns (n : Word) : WalkOutcome → Nat
  | .ok _ it => if n = 1 then 1 else 4 * it.toNat
  | .error _ it => 4 * it.toNat

/-- The registers after a command with this outcome, from the registers at its CMD write on an idle
engine (R101, R105, R106): only RESULT, ITER and STATUS change, and OVR keeps its value. -/
def outcomeRegs (r : Regs) : WalkOutcome → Regs
  | .ok v it =>
    { r with
      result := v, iter := it
      status := { busy := false, done := true, err := false, ovr := r.status.ovr, errcode := 0 } }
  | .error c it =>
    { r with
      iter := it
      status := { busy := false, done := true, err := true, ovr := r.status.ovr, errcode := c.code } }

end Sys2Proof.Machine
end

