-- ==== Sys2Proof/Certificates/Slice0/Obligations.lean ====
section
/-! DEFINITION. The statements for the provers. Each docstring names the rule of spec/ it formalises. `P`,
`F` and `M` range over every choice of the open functions. -/

open Sys2Proof Sys2Proof.Machine Host

/-! ## Encoding -/

/-- R80, R85: decoding the word of a well-formed command gives the command back. -/
def Obligations.DecodeEncodeRoundTrip : Prop :=
  ∀ i : Instr, i.wf = true → decode (encode i) = .ok i

/-- R85: the legal words are exactly NOP, MIX, FPE and the FEISTEL words, 16,387 in all, and every other
word is ILLEGAL. -/
def Obligations.LegalWordsExactly : Prop :=
  (∀ (v : Word) (i : Instr), decode v = .ok i ↔
    (v = 0x0 ∧ i = .nop) ∨ (v = 0x1 ∧ i = .mix) ∨ (v = 0x3 ∧ i = .fpe) ∨
    ∃ lb rb : Nat, lb ≤ 127 ∧ rb ≤ 127 ∧ i = .feistel lb rb ∧
      v = 0x2 ||| (BitVec.ofNat 64 lb <<< 8) ||| (BitVec.ofNat 64 rb <<< 16)) ∧
  Set.ncard {v : Word | ∃ i, decode v = .ok i} = 16387

/-- R92: the table of example words, read by the encoder from the mnemonic forms and by the decoder. -/
def Obligations.ExampleWordsDecode : Prop :=
  encode .nop = 0x0000000000000000 ∧ encode .mix = 0x0000000000000001 ∧
  encode .fpe = 0x0000000000000003 ∧ encode (.feistel 4 4) = 0x0000000000040402 ∧
  encode (.feistel 2 3) = 0x0000000000030202 ∧ encode (.feistel 32 32) = 0x0000000000202002 ∧
  encode (.feistel 63 1) = 0x0000000000013F02 ∧ encode (.feistel 1 63) = 0x00000000003F0102 ∧
  encode (.feistel 0 1) = 0x0000000000010002 ∧
  decode 0x0000000000000000 = .ok .nop ∧
  decode 0x0000000000000001 = .ok .mix ∧
  decode 0x0000000000000003 = .ok .fpe ∧
  decode 0x0000000000040402 = .ok (.feistel 4 4) ∧
  decode 0x0000000000030202 = .ok (.feistel 2 3) ∧
  decode 0x0000000000202002 = .ok (.feistel 32 32) ∧
  decode 0x0000000000013F02 = .ok (.feistel 63 1) ∧
  decode 0x00000000003F0102 = .ok (.feistel 1 63) ∧
  decode 0x0000000000010002 = .ok (.feistel 0 1) ∧
  (∀ s : State, s.regs.status.busy = false →
    ∃ t, command 0x0000000000010002 s = .next t ∧
      t.regs.status.errcode = 2 ∧ t.regs.status.err = true) ∧
  (∃ e, decode 0x0000000000000004 = .error e) ∧
  (∃ e, decode 0x0000000000000011 = .error e) ∧
  (∃ e, decode 0x0000000000000101 = .error e) ∧
  (∃ e, decode 0x0000000000800002 = .error e)

/-- R201: the words that complete with ILLEGAL_CMD on an idle engine, and all that such a CMD write
records: ERRCODE 1, ERR 1, DONE 1, ITER 0, the operands latched, RESULT and OVR unchanged. -/
def Obligations.IllegalWordCompletesWithError : Prop :=
  ∀ (v : Word) (s : State), s.regs.status.busy = false →
    (4 ≤ (v.extractLsb' 0 4).toNat ∨
      v.extractLsb' 4 4 ≠ 0 ∨ v.getLsbD 15 = true ∨ v.extractLsb' 23 41 ≠ 0 ∨
      ((v.extractLsb' 0 4).toNat ≠ 2 ∧ (v.extractLsb' 8 7 ≠ 0 ∨ v.extractLsb' 16 7 ≠ 0))) →
    hostAccess (.write 0x00 8 v) s = .next
      { s with
        regs := { s.regs with
          iter := 0
          status := { busy := false, done := true, err := true, ovr := s.regs.status.ovr, errcode := 1 } }
        eng := { s.eng with
          fsm := .idle, x := s.regs.x, n := s.regs.n, k := s.regs.key
          klo := s.regs.keyLo, khi := s.regs.keyHi, limit := s.regs.walkLimit } }

/-! ## The commands -/

/-- R107: NOP changes nothing on an idle engine, so it neither acknowledges nor clears `irq`; written
while BUSY is 1 it sets OVR and does nothing else. -/
def Obligations.NopChangesNothing : Prop :=
  ∀ s : State,
    (s.regs.status.busy = false → exec .nop s = .next s ∧ command 0x0 s = .next s) ∧
    (s.regs.status.busy = true →
      exec .nop s = .next { s with regs := { s.regs with status := { s.regs.status with ovr := true } } } ∧
      command 0x0 s = .next { s with regs := { s.regs with status := { s.regs.status with ovr := true } } })

/-- R108: a CMD write of any word while BUSY is 1 sets OVR and has no other effect. -/
def Obligations.BusyCommandIsLost : Prop :=
  ∀ s : State, s.regs.status.busy = true →
    (∀ v : Word, command v s =
      .next { s with regs := { s.regs with status := { s.regs.status with ovr := true } } }) ∧
    (∀ i : Instr, exec i s =
      .next { s with regs := { s.regs with status := { s.regs.status with ovr := true } } })

/-- R122: MIX on an idle engine is accepted whatever X, KEY_LO and KEY_HI hold, with all that R101 and
R103 do at acceptance. -/
def Obligations.MixIsAccepted : Prop :=
  ∀ s : State, s.regs.status.busy = false →
    exec .mix s = .next
      { s with
        regs := { s.regs with
          status := { busy := true, done := false, err := false, ovr := s.regs.status.ovr, errcode := 0 } }
        eng := { s.eng with
          fsm := .mixing, op := .mix, x := s.regs.x, n := s.regs.n, k := s.regs.key
          klo := s.regs.keyLo, khi := s.regs.keyHi, limit := s.regs.walkLimit } }

/-- R124: the word 0x1 written to CMD, then one engine turn: RESULT is `MIX(KEY_LO, KEY_HI, X)`, ITER is
0, STATUS is DONE, and no other register has changed. -/
def Obligations.MixCommandComputesMix : Prop :=
  ∀ (P : Params) (s : State) (evs : List Event),
    s.regs.status.busy = false → s.bus.resetIn = false →
    s.bus.agenda = .access (.write 0x00 8 0x1) :: .engine :: evs →
    ∃ t, runWith P 2 s = .next t ∧
      t.regs = { s.regs with
        result := P.mix s.regs.keyLo s.regs.keyHi s.regs.x, iter := 0
        status := { busy := false, done := true, err := false, ovr := s.regs.status.ovr, errcode := 0 } } ∧
      t.eng.fsm = .idle ∧ t.bus = { s.bus with agenda := evs }

/-- R145, R202: FEISTEL on an idle engine: inside the contract the rounds begin on the latched X; with
`LB = 0`, `RB = 0` or `LB + RB > 64` it completes with BAD_WIDTH, RESULT unchanged. -/
def Obligations.FeistelAcceptance : Prop :=
  ∀ (lb rb : Nat) (s : State), s.regs.status.busy = false →
    ((1 ≤ lb ∧ 1 ≤ rb ∧ lb + rb ≤ 64) →
      (lb ≤ 63 ∧ rb ≤ 63) ∧
      exec (.feistel lb rb) s = .next
        { s with
          regs := { s.regs with
            status := { busy := true, done := false, err := false, ovr := s.regs.status.ovr, errcode := 0 } }
          eng :=
            { fsm := .rounds, op := .feistel, x := s.regs.x, n := s.regs.n, k := s.regs.key
              klo := s.regs.keyLo, khi := s.regs.keyHi, limit := s.regs.walkLimit
              lb := lb, rb := rb, w := s.regs.x, round := 0, iter := 0 } }) ∧
    ((lb = 0 ∨ rb = 0 ∨ 64 < lb + rb) →
      exec (.feistel lb rb) s = .next
        { s with
          regs := { s.regs with
            iter := 0
            status := { busy := false, done := true, err := true, ovr := s.regs.status.ovr, errcode := 2 } }
          eng := { s.eng with
            fsm := .idle, x := s.regs.x, n := s.regs.n, k := s.regs.key
            klo := s.regs.keyLo, khi := s.regs.keyHi, limit := s.regs.walkLimit } })

/-- R146: the round step's three cases, and that an accepted FEISTEL command takes exactly four engine
steps. -/
def Obligations.RoundEngineStep : Prop :=
  (∀ (P : Params) (s : State), s.eng.fsm = .rounds → s.eng.round < 3 →
    engineStep P s =
      { s with eng := { s.eng with
        w := feistelRound P.roundF s.eng.w s.eng.lb s.eng.rb s.eng.k
        round := s.eng.round + 1 } }) ∧
  (∀ (P : Params) (s : State), s.eng.fsm = .rounds → 3 ≤ s.eng.round → s.eng.op = .feistel →
    engineStep P s =
      { s with
        regs := { s.regs with
          result := feistelRound P.roundF s.eng.w s.eng.lb s.eng.rb s.eng.k, iter := 0
          status := { s.regs.status with busy := false, done := true, err := false, errcode := 0 } }
        eng := { s.eng with
          w := feistelRound P.roundF s.eng.w s.eng.lb s.eng.rb s.eng.k
          round := 0, iter := s.eng.iter + 1, fsm := .idle } }) ∧
  (∀ (P : Params) (s : State), s.eng.fsm = .rounds → 3 ≤ s.eng.round → s.eng.op ≠ .feistel →
    engineStep P s = walkCheck
      { s with eng := { s.eng with
        w := feistelRound P.roundF s.eng.w s.eng.lb s.eng.rb s.eng.k
        round := 0, iter := s.eng.iter + 1 } }) ∧
  (∀ (P : Params) (s : State) (lb rb : Nat), s.regs.status.busy = false →
    1 ≤ lb ∧ 1 ≤ rb ∧ lb + rb ≤ 64 →
    ∃ t, exec (.feistel lb rb) s = .next t ∧
      (∀ m, m < 4 → (engineSteps P m t).regs.status.busy = true) ∧
      (engineSteps P 4 t).regs.status.busy = false)

/-- R144: a legal FEISTEL word written to CMD, then four engine turns: RESULT is
`FEISTEL4(X, LB, RB, KEY)`, ITER is 0, STATUS is DONE, and no other register has changed. -/
def Obligations.FeistelCommandComputesFeistel4 : Prop :=
  ∀ (P : Params) (s : State) (lb rb : Nat) (evs : List Event),
    s.regs.status.busy = false → s.bus.resetIn = false →
    1 ≤ lb ∧ 1 ≤ rb ∧ lb + rb ≤ 64 →
    s.bus.agenda =
      .access (.write 0x00 8 (0x2 ||| (BitVec.ofNat 64 lb <<< 8) ||| (BitVec.ofNat 64 rb <<< 16)))
        :: (List.replicate 4 .engine ++ evs) →
    ∃ t, runWith P 5 s = .next t ∧
      t.regs = { s.regs with
        result := feistel4 P.roundF s.regs.x lb rb s.regs.key, iter := 0
        status := { busy := false, done := true, err := false, ovr := s.regs.status.ovr, errcode := 0 } } ∧
      t.eng.fsm = .idle ∧ t.bus = { s.bus with agenda := evs }

/-- R174, R203, R204: FPE on an idle engine: N_ZERO before INPUT_RANGE, IDENT for `n = 1`, the rounds
with `Widths(n)` otherwise. -/
def Obligations.FpeAcceptance : Prop :=
  ∀ s : State, s.regs.status.busy = false →
    (s.regs.n.toNat = 0 →
      exec .fpe s = .next
        { s with
          regs := { s.regs with
            iter := 0
            status := { busy := false, done := true, err := true, ovr := s.regs.status.ovr, errcode := 3 } }
          eng := { s.eng with
            fsm := .idle, x := s.regs.x, n := s.regs.n, k := s.regs.key
            klo := s.regs.keyLo, khi := s.regs.keyHi, limit := s.regs.walkLimit } }) ∧
    (s.regs.n.toNat ≠ 0 → s.regs.n.toNat ≤ s.regs.x.toNat →
      exec .fpe s = .next
        { s with
          regs := { s.regs with
            iter := 0
            status := { busy := false, done := true, err := true, ovr := s.regs.status.ovr, errcode := 4 } }
          eng := { s.eng with
            fsm := .idle, x := s.regs.x, n := s.regs.n, k := s.regs.key
            klo := s.regs.keyLo, khi := s.regs.keyHi, limit := s.regs.walkLimit } }) ∧
    (s.regs.n.toNat = 1 → s.regs.x.toNat = 0 →
      exec .fpe s = .next
        { s with
          regs := { s.regs with
            status := { busy := true, done := false, err := false, ovr := s.regs.status.ovr, errcode := 0 } }
          eng := { s.eng with
            fsm := .ident, op := .fpe, x := s.regs.x, n := s.regs.n, k := s.regs.key
            klo := s.regs.keyLo, khi := s.regs.keyHi, limit := s.regs.walkLimit } }) ∧
    (2 ≤ s.regs.n.toNat → s.regs.x.toNat < s.regs.n.toNat →
      exec .fpe s = .next
        { s with
          regs := { s.regs with
            status := { busy := true, done := false, err := false, ovr := s.regs.status.ovr, errcode := 0 } }
          eng :=
            { fsm := .rounds, op := .fpe, x := s.regs.x, n := s.regs.n, k := s.regs.key
              klo := s.regs.keyLo, khi := s.regs.keyHi, limit := s.regs.walkLimit
              lb := clog2 s.regs.n.toNat / 2
              rb := clog2 s.regs.n.toNat - clog2 s.regs.n.toNat / 2
              w := s.regs.x, round := 0, iter := 0 } })

/-- R175: the IDENT step completes with the latched X and ITER 0, and an FPE command of 0 over `n = 1`
is that one step, giving 0 for any KEY. -/
def Obligations.DegenerateDomainIsIdentity : Prop :=
  (∀ (P : Params) (s : State), s.eng.fsm = .ident →
    engineStep P s =
      { s with
        regs := { s.regs with
          result := s.eng.x, iter := 0
          status := { s.regs.status with busy := false, done := true, err := false, errcode := 0 } }
        eng := { s.eng with fsm := .idle } }) ∧
  (∀ (P : Params) (s : State), s.regs.status.busy = false → s.regs.n = 1 → s.regs.x = 0 →
    ∃ t, exec .fpe s = .next t ∧ t.eng.fsm = .ident ∧
      (engineStep P t).regs.result = 0 ∧ (engineStep P t).regs.iter = 0 ∧
      (engineStep P t).regs.status.done = true ∧ (engineStep P t).regs.status.err = false)

/-- R177: the step that ends an application of the walk: below `n` it completes, at the cap it ends with
WALK_EXHAUSTED, otherwise the walk goes on with `e.round = 0`. -/
def Obligations.WalkCheckStep : Prop :=
  ∀ (P : Params) (s : State) (w : Word), s.eng.fsm = .rounds → s.eng.op = .fpe → s.eng.round = 3 →
    w = feistelRound P.roundF s.eng.w s.eng.lb s.eng.rb s.eng.k →
    (w.toNat < s.eng.n.toNat →
      engineStep P s =
        { s with
          regs := { s.regs with
            result := w, iter := s.eng.iter + 1
            status := { s.regs.status with busy := false, done := true, err := false, errcode := 0 } }
          eng := { s.eng with w := w, round := 0, iter := s.eng.iter + 1, fsm := .idle } }) ∧
    (s.eng.n.toNat ≤ w.toNat → s.eng.limit ≠ 0 → s.eng.iter + 1 = s.eng.limit →
      engineStep P s =
        { s with
          regs := { s.regs with
            iter := s.eng.iter + 1
            status := { s.regs.status with busy := false, done := true, err := true, errcode := 5 } }
          eng := { s.eng with w := w, round := 0, iter := s.eng.iter + 1, fsm := .idle } }) ∧
    (s.eng.n.toNat ≤ w.toNat → (s.eng.limit = 0 ∨ s.eng.iter + 1 ≠ s.eng.limit) →
      engineStep P s = { s with eng := { s.eng with w := w, round := 0, iter := s.eng.iter + 1 } })

/-- R205: an FPE command whose cap `L ≠ 0` is reached with every application at or above `n` ends with
WALK_EXHAUSTED after `4 * L` engine turns: ITER is `L` and RESULT is unchanged. -/
def Obligations.WalkCapExhausts : Prop :=
  ∀ (P : Params) (s : State) (evs : List Event),
    s.regs.status.busy = false → s.bus.resetIn = false →
    2 ≤ s.regs.n.toNat → s.regs.x.toNat < s.regs.n.toNat → s.regs.walkLimit ≠ 0 →
    (∀ i, 1 ≤ i → i ≤ s.regs.walkLimit.toNat →
      s.regs.n.toNat ≤ (feistel4Iter P.roundF (widths s.regs.n.toNat).1 (widths s.regs.n.toNat).2
        s.regs.key i s.regs.x).toNat) →
    s.bus.agenda = .access (.write 0x00 8 0x3)
      :: (List.replicate (4 * s.regs.walkLimit.toNat) .engine ++ evs) →
    ∃ t, runWith P (1 + 4 * s.regs.walkLimit.toNat) s = .next t ∧
      t.regs = { s.regs with
        iter := s.regs.walkLimit
        status := { busy := false, done := true, err := true, ovr := s.regs.status.ovr, errcode := 5 } } ∧
      t.eng.fsm = .idle ∧ t.bus = { s.bus with agenda := evs }

/-- R180: an FPE command on an idle engine gives exactly the outcome `FPEWALK` of its operands, after
the engine turns that outcome takes, and BUSY is 1 until the last of them (R187). -/
def Obligations.FpeCommandComputesWalk : Prop :=
  ∀ (P : Params) (s : State), s.regs.status.busy = false → s.bus.resetIn = false →
    ∃ o, fpeWalk P.roundF s.regs.x s.regs.n s.regs.key s.regs.walkLimit = some o ∧
      (∀ evs, s.bus.agenda = .access (.write 0x00 8 0x3)
          :: (List.replicate (fpeTurns s.regs.n o) .engine ++ evs) →
        ∃ t, runWith P (1 + fpeTurns s.regs.n o) s = .next t ∧
          t.regs = outcomeRegs s.regs o ∧ t.eng.fsm = .idle ∧
          t.bus = { s.bus with agenda := evs }) ∧
      (∃ t, exec .fpe s = .next t ∧
        ∀ m, m < fpeTurns s.regs.n o → (engineSteps P m t).regs.status.busy = true)

/-! ## Laws of the datapath and of the walk -/

/-- R147: FEISTEL4 depends only on the low `lb + rb` bits of its input, its value is below
`2^(lb + rb)`, and no X is refused for its high bits. -/
def Obligations.FeistelIgnoresHighBits : Prop :=
  (∀ (F : Word → Word → Word) (lb rb : Nat) (k x y : Word), 1 ≤ lb → 1 ≤ rb → lb + rb ≤ 64 →
    (x.toNat % 2 ^ (lb + rb) = y.toNat % 2 ^ (lb + rb) →
      feistel4 F x lb rb k = feistel4 F y lb rb k) ∧
    (feistel4 F x lb rb k).toNat < 2 ^ (lb + rb)) ∧
  (∀ (lb rb : Nat) (s : State), s.regs.status.busy = false → 1 ≤ lb → 1 ≤ rb → lb + rb ≤ 64 →
    ∃ t, exec (.feistel lb rb) s = .next t ∧ t.regs.status.busy = true)

/-- R148: for `lb ≤ rb` a round and the 4-round permutation are bijections of `[0, 2^(lb+rb))`. -/
def Obligations.FeistelIsBijection : Prop :=
  ∀ (F : Word → Word → Word) (lb rb : Nat) (k : Word), lb ≤ rb → rb ≤ 63 → lb + rb ≤ 64 →
    Set.BijOn (fun w => feistelRound F w lb rb k)
      {w | w.toNat < 2 ^ (lb + rb)} {w | w.toNat < 2 ^ (lb + rb)} ∧
    Set.BijOn (fun w => feistel4 F w lb rb k)
      {w | w.toNat < 2 ^ (lb + rb)} {w | w.toNat < 2 ^ (lb + rb)}

/-- R149: for `lb > rb` a round is not injective on `[0, 2^(lb+rb))`: blocks whose left parts differ only
in the `lb − rb` bits that the round loses go to one block; with `ROUND_F ≡ 0`, `lb = 3`, `rb = 1`, all
16 inputs give 0. -/
def Obligations.WideLeftRoundLosesBits : Prop :=
  (∀ (F : Word → Word → Word) (lb rb : Nat) (k : Word), 1 ≤ rb → rb < lb → lb + rb ≤ 64 →
    (∀ w w' : Word, w.toNat % 2 ^ rb = w'.toNat % 2 ^ rb →
      w.toNat / 2 ^ rb % 2 ^ rb = w'.toNat / 2 ^ rb % 2 ^ rb →
      feistelRound F w lb rb k = feistelRound F w' lb rb k) ∧
    ¬ Set.InjOn (fun w => feistelRound F w lb rb k) {w | w.toNat < 2 ^ (lb + rb)}) ∧
  (∀ (k x : Word), x.toNat < 16 → feistel4 (fun _ _ => 0) x 3 1 k = 0)

/-- R150: for `lb ≤ rb` the inverse round undoes a round, and four of them undo FEISTEL4. -/
def Obligations.InverseRoundUndoesRound : Prop :=
  ∀ (F : Word → Word → Word) (lb rb : Nat) (k w : Word), lb ≤ rb → rb ≤ 63 → lb + rb ≤ 64 →
    w.toNat < 2 ^ (lb + rb) →
    feistelRoundInv F (feistelRound F w lb rb k) lb rb k = w ∧
    feistelRoundsInv F lb rb k 4 (feistel4 F w lb rb k) = w

/-- R151: for `lb = rb` the round is the textbook one: the new left half is `r` and the new right half
is `l XOR ROUND_F(k, r)` cut to `lb` bits; for `lb < rb` the next left part is the top `lb` bits of `r`
and the next right part the low `rb` bits of `(r << lb) | t`. -/
def Obligations.RoundReassemblesHalves : Prop :=
  ∀ (F : Word → Word → Word) (lb rb : Nat) (k w l r t : Word),
    1 ≤ lb → rb ≤ 63 → lb + rb ≤ 64 →
    l = (w >>> rb) &&& mask lb → r = w &&& mask rb → t = (l ^^^ F k r) &&& mask lb →
    (lb = rb →
      (feistelRound F w lb rb k >>> lb) &&& mask lb = r ∧ feistelRound F w lb rb k &&& mask lb = t) ∧
    (lb < rb →
      (feistelRound F w lb rb k >>> rb) &&& mask lb = r >>> (rb - lb) ∧
      feistelRound F w lb rb k &&& mask rb = ((r <<< lb) ||| t) &&& mask rb)

/-- R152: with `ROUND_F ≡ 0`, on inputs below `2^(lb+rb)`: FEISTEL4 is the identity for `lb = rb`; for
`lb < rb` a round rotates the word left by `lb` places and FEISTEL4 by `4·lb mod (lb+rb)`. -/
def Obligations.ZeroRoundFunctionRotates : Prop :=
  ∀ (lb rb : Nat) (k w : Word), 1 ≤ lb → lb ≤ rb → lb + rb ≤ 64 → w.toNat < 2 ^ (lb + rb) →
    (lb = rb → feistel4 (fun _ _ => 0) w lb rb k = w) ∧
    (lb < rb →
      (feistelRound (fun _ _ => 0) w lb rb k).toNat =
        w.toNat * 2 ^ lb % 2 ^ (lb + rb) + w.toNat / 2 ^ rb ∧
      (feistel4 (fun _ _ => 0) w lb rb k).toNat =
        w.toNat * 2 ^ (4 * lb % (lb + rb)) % 2 ^ (lb + rb) +
          w.toNat / 2 ^ (lb + rb - 4 * lb % (lb + rb)))

/-- R153: with `lb = 0` a round is `w & MASK(rb)` whatever `ROUND_F` and `k` are, the identity below
`2^rb`, and 0 when `rb = 0`. -/
def Obligations.ZeroLeftWidthRound : Prop :=
  ∀ (F : Word → Word → Word) (rb : Nat) (k w : Word), rb ≤ 63 →
    feistelRound F w 0 rb k = w &&& mask rb ∧
    (w.toNat < 2 ^ rb → feistelRound F w 0 rb k = w) ∧
    feistelRound F w 0 0 k = 0

/-- R15: `CLOG2(n)` is the least `b` with `2^b ≥ n`, at most 64, with the values the rule lists. -/
def Obligations.Clog2IsLeastExponent : Prop :=
  (∀ n : Nat, 1 ≤ n → n < 2 ^ 64 → clog2 n ≤ 64 ∧ ∀ b, clog2 n ≤ b ↔ n ≤ 2 ^ b) ∧
  clog2 1 = 0 ∧ clog2 2 = 1 ∧
  (∀ k, k ≤ 63 → clog2 (2 ^ k) = k) ∧ (∀ k, k ≤ 63 → clog2 (2 ^ k + 1) = k + 1)

/-- R171: the ranges of the domain descriptor and the table of its boundary values. -/
def Obligations.DescriptorRanges : Prop :=
  (∀ n : Nat, 1 ≤ n → n < 2 ^ 64 →
    clog2 n ≤ 64 ∧ (widths n).1 ≤ (widths n).2 ∧ (widths n).2 ≤ (widths n).1 + 1 ∧
    (widths n).1 ≤ 32 ∧ (widths n).2 ≤ 32 ∧
    ((widths n).1 = 0 ↔ n ≤ 2) ∧ ((widths n).2 = 0 ↔ n = 1)) ∧
  (∀ n : Nat,
    (n = 1 → clog2 n = 0 ∧ widths n = (0, 0)) ∧
    (n = 2 → clog2 n = 1 ∧ widths n = (0, 1)) ∧
    (3 ≤ n ∧ n ≤ 4 → clog2 n = 2 ∧ widths n = (1, 1)) ∧
    (5 ≤ n ∧ n ≤ 8 → clog2 n = 3 ∧ widths n = (1, 2)) ∧
    (9 ≤ n ∧ n ≤ 16 → clog2 n = 4 ∧ widths n = (2, 2)) ∧
    (17 ≤ n ∧ n ≤ 32 → clog2 n = 5 ∧ widths n = (2, 3)) ∧
    (n = 65537 → clog2 n = 17 ∧ widths n = (8, 9)) ∧
    (n = 2 ^ 63 → clog2 n = 63 ∧ widths n = (31, 32)) ∧
    (2 ^ 63 + 1 ≤ n ∧ n ≤ 2 ^ 64 - 1 → clog2 n = 64 ∧ widths n = (32, 32)))

/-- R181: for `n ≥ 2` and `x < n` the walk lands below `n` within `2^bits − n + 1 ≤ n` applications,
whatever `ROUND_F` and `k` are; the largest such bound is `2^63`, for `n = 2^63 + 1`. -/
def Obligations.WalkEndsWithinBound : Prop :=
  (∀ (F : Word → Word → Word) (k x : Word) (n : Nat), 2 ≤ n → n < 2 ^ 64 → x.toNat < n →
    ∃ i, 1 ≤ i ∧ i ≤ 2 ^ clog2 n - n + 1 ∧
      (feistel4Iter F (widths n).1 (widths n).2 k i x).toNat < n ∧
      ∀ j, 1 ≤ j → j < i → n ≤ (feistel4Iter F (widths n).1 (widths n).2 k j x).toNat) ∧
  (∀ n : Nat, 2 ≤ n → n < 2 ^ 64 → 2 ^ clog2 n - n + 1 ≤ n ∧ 2 ^ clog2 n - n + 1 ≤ 2 ^ 63) ∧
  2 ^ clog2 (2 ^ 63 + 1) - (2 ^ 63 + 1) + 1 = 2 ^ 63

/-- R182: with no cap, FPE is a bijection of `[0, n)`; with a cap, an input that does not exhaust gives
the result it gives with no cap, so distinct inputs give distinct results. -/
def Obligations.FpeIsBijection : Prop :=
  ∀ (F : Word → Word → Word) (n k : Word), n ≠ 0 →
    (∃ f : Word → Word,
      (∀ x, x.toNat < n.toNat → ∃ it, fpeWalk F x n k 0 = some (.ok (f x) it)) ∧
      Set.BijOn f {x | x.toNat < n.toNat} {x | x.toNat < n.toNat}) ∧
    (∀ limit x v it, limit ≠ 0 → fpeWalk F x n k limit = some (.ok v it) →
      fpeWalk F x n k 0 = some (.ok v it)) ∧
    (∀ limit x y v it it', limit ≠ 0 → fpeWalk F x n k limit = some (.ok v it) →
      fpeWalk F y n k limit = some (.ok v it') → x = y)

/-- R183: for `n = 2` FPE is the identity with ITER 1, whatever `ROUND_F` and `k` are. -/
def Obligations.DomainTwoIsIdentity : Prop :=
  ∀ (F : Word → Word → Word) (k limit x : Word), x.toNat < 2 →
    fpeWalk F x 2 k limit = some (.ok x 1)

/-- R184: for `n = 2^bits` with `bits ≥ 1` the first application lands below `n`: ITER is 1 and RESULT is
FEISTEL4. -/
def Obligations.PowerOfTwoTakesOneApplication : Prop :=
  ∀ (F : Word → Word → Word) (b : Nat) (k limit x : Word), 1 ≤ b → b ≤ 63 → x.toNat < 2 ^ b →
    fpeWalk F x (BitVec.ofNat 64 (2 ^ b)) k limit =
      some (.ok (feistel4 F x (b / 2) (b - b / 2) k) 1)

/-- R186: two FPE commands with the same X, N, KEY and WALK_LIMIT give the same RESULT, ITER and error
code, whatever the other registers and the idle engine's fields hold when they are written. That both
complete with no further event rests on the engine's progress (R66, log entry 16, the model's choice). -/
def Obligations.FpeIsDeterministic : Prop :=
  ∀ (P : Params) (s s' : State),
    s.regs.status.busy = false → s.bus.resetIn = false →
    s'.regs.status.busy = false → s'.bus.resetIn = false →
    s.bus.agenda = [.access (.write 0x00 8 0x3)] → s'.bus.agenda = [.access (.write 0x00 8 0x3)] →
    s'.regs.x = s.regs.x → s'.regs.n = s.regs.n → s'.regs.key = s.regs.key →
    s'.regs.walkLimit = s.regs.walkLimit →
    ∃ m t t', runWith P m s = .next t ∧ runWith P m s' = .next t' ∧
      t.regs.status.busy = false ∧ t'.regs.status.busy = false ∧
      t.regs.status.done = true ∧ t'.regs.status.done = true ∧
      t'.regs.iter = t.regs.iter ∧ t'.regs.status.err = t.regs.status.err ∧
      t'.regs.status.errcode = t.regs.status.errcode ∧
      (t.regs.status.err = false → t'.regs.result = t.regs.result)

/-! ## The register window -/

/-- R56: a read of any width and offset: refused unless aligned, 8 bytes wide and inside the window;
otherwise it returns the slot's value and changes no state (only the model's record of the value
returned, log entry 5). -/
def Obligations.WindowReads : Prop :=
  ∀ s : State,
    (∀ off width : Nat, width ≠ 8 ∨ off % 8 ≠ 0 ∨ 0x80 ≤ off →
      hostAccess (.read off width) s = .fault (.busError (.read off width))) ∧
    hostAccess (.read 0x00 8) s = .next (s.reply 0) ∧
    hostAccess (.read 0x08 8) s = .next (s.reply
      ((s.regs.status.errcode.zeroExtend 64 <<< 8)
        ||| ((if s.regs.status.ovr then (1 : Word) else 0) <<< 3)
        ||| ((if s.regs.status.err then (1 : Word) else 0) <<< 2)
        ||| ((if s.regs.status.done then (1 : Word) else 0) <<< 1)
        ||| (if s.regs.status.busy then (1 : Word) else 0))) ∧
    hostAccess (.read 0x10 8) s = .next (s.reply (if s.regs.ie then 1 else 0)) ∧
    hostAccess (.read 0x18 8) s = .next (s.reply s.regs.x) ∧
    hostAccess (.read 0x20 8) s = .next (s.reply s.regs.n) ∧
    hostAccess (.read 0x28 8) s = .next (s.reply s.regs.key) ∧
    hostAccess (.read 0x30 8) s = .next (s.reply s.regs.keyLo) ∧
    hostAccess (.read 0x38 8) s = .next (s.reply s.regs.keyHi) ∧
    hostAccess (.read 0x40 8) s = .next (s.reply s.regs.result) ∧
    hostAccess (.read 0x48 8) s = .next (s.reply s.regs.iter) ∧
    hostAccess (.read 0x50 8) s = .next (s.reply s.regs.walkLimit) ∧
    (∀ off ∈ [0x58, 0x60, 0x68, 0x70, 0x78], hostAccess (.read off 8) s = .next (s.reply 0)) ∧
    (∀ v : Word, (s.reply v).regs = s.regs ∧ (s.reply v).eng = s.eng ∧
      (s.reply v).bus = { s.bus with reads := v :: s.bus.reads })

/-- R22: the bits of STATUS as a host reads it; every bit not listed reads 0. -/
def Obligations.StatusReadLayout : Prop :=
  ∀ (st : Status) (j : Nat),
    (statusWord st).getLsbD j =
      if j = 0 then st.busy
      else if j = 1 then st.done
      else if j = 2 then st.err
      else if j = 3 then st.ovr
      else if 8 ≤ j ∧ j ≤ 11 then st.errcode.getLsbD (j - 8)
      else false

/-- R57, R28: a write of any width and offset: refused unless aligned, 8 bytes wide and inside the window;
otherwise it presents a command, clears STATUS bits, writes CTRL or a register, or has no effect. -/
def Obligations.WindowWrites : Prop :=
  ∀ (s : State) (v : Word),
    (∀ off width : Nat, width ≠ 8 ∨ off % 8 ≠ 0 ∨ 0x80 ≤ off →
      hostAccess (.write off width v) s = .fault (.busError (.write off width v))) ∧
    hostAccess (.write 0x00 8 v) s = command v s ∧
    hostAccess (.write 0x08 8 v) s = .next
      { s with regs := { s.regs with
        status :=
          { busy := s.regs.status.busy
            done := if v.getLsbD 1 then false else s.regs.status.done
            err := if v.getLsbD 2 then false else s.regs.status.err
            ovr := if v.getLsbD 3 then false else s.regs.status.ovr
            errcode := s.regs.status.errcode } } } ∧
    hostAccess (.write 0x10 8 v) s = .next { s with regs := { s.regs with ie := v.getLsbD 0 } } ∧
    hostAccess (.write 0x18 8 v) s = .next { s with regs := { s.regs with x := v } } ∧
    hostAccess (.write 0x20 8 v) s = .next { s with regs := { s.regs with n := v } } ∧
    hostAccess (.write 0x28 8 v) s = .next { s with regs := { s.regs with key := v } } ∧
    hostAccess (.write 0x30 8 v) s = .next { s with regs := { s.regs with keyLo := v } } ∧
    hostAccess (.write 0x38 8 v) s = .next { s with regs := { s.regs with keyHi := v } } ∧
    hostAccess (.write 0x50 8 v) s = .next { s with regs := { s.regs with walkLimit := v } } ∧
    (∀ off ∈ [0x40, 0x48, 0x58, 0x60, 0x68, 0x70, 0x78],
      hostAccess (.write off 8 v) s = .next s)

/-- R61: a read changes no state; every write but a CMD write is idempotent; a CMD write is not. -/
def Obligations.WritesAreIdempotent : Prop :=
  (∀ (off : Nat) (s t : State), hostAccess (.read off 8) s = .next t →
    t.regs = s.regs ∧ t.eng = s.eng) ∧
  (∀ (off : Nat) (v : Word) (s t : State), off ≠ 0x00 →
    hostAccess (.write off 8 v) s = .next t → hostAccess (.write off 8 v) t = .next t) ∧
  (∃ (v : Word) (s t u : State), hostAccess (.write 0x00 8 v) s = .next t ∧
    hostAccess (.write 0x00 8 v) t = .next u ∧ u ≠ t)

/-- R58: byte offset `off + i` of the window carries bits `8i+7 : 8i` of the register at `off`. -/
def Obligations.ByteLanesAreLittleEndian : Prop :=
  ∀ (r : Regs) (off i j : Nat), off % 8 = 0 → off < 0x80 → i ≤ 7 → j ≤ 7 →
    (windowByte r (off + i)).getLsbD j = (readWindow r off).getLsbD (8 * i + j)

/-- A plain write changes the one slot it names and is read back there; the same access to another slot
leaves it (R20, R52, R57; STATUS and CMD have their own statements). -/
def Obligations.WriteChangesOneSlot : Prop :=
  ∀ (off : Nat) (v : Word) (s t : State), 0x10 ≤ off → hostAccess (.write off 8 v) s = .next t →
    t.eng = s.eng ∧ t.bus = s.bus ∧ t.regs.status = s.regs.status ∧
    (∀ a, a < off ∨ off + 8 ≤ a → windowByte t.regs a = windowByte s.regs a) ∧
    (off ∈ [0x18, 0x20, 0x28, 0x30, 0x38, 0x50] → readWindow t.regs off = v) ∧
    (off = 0x10 → readWindow t.regs off = v &&& 1) ∧
    (off ∈ [0x40, 0x48] → readWindow t.regs off = readWindow s.regs off) ∧
    (0x58 ≤ off → readWindow t.regs off = 0)

/-! ## Whole-machine rules -/

/-- R26: OVR rises exactly at a CMD write while BUSY is 1, and falls only at a STATUS write with bit 3
set or at reset. -/
def Obligations.OvrIsSticky : Prop :=
  (∀ (v : Word) (s : State), s.regs.status.busy = true →
    ∃ t, command v s = .next t ∧ t.regs.status.ovr = true) ∧
  (∀ (P : Params) (s t : State), stepWith P s = .next t →
    (s.regs.status.ovr = false → t.regs.status.ovr = true →
      ∃ v evs, s.bus.agenda = .access (.write 0x00 8 v) :: evs ∧ s.regs.status.busy = true) ∧
    (s.regs.status.ovr = true → t.regs.status.ovr = false →
      (∃ v evs, s.bus.agenda = .access (.write 0x08 8 v) :: evs ∧ v.getLsbD 3 = true) ∨
      ∃ evs, s.bus.agenda = .resetAssert :: evs))

/-- R31, R32, R105, R106: RESULT changes only at an engine step of a running command that completes without
error; ITER only at an engine step of a running command that completes, or at the CMD write of a word other
than NOP, on an engine that is not busy, that completes with an error and ITER 0; both otherwise only at
reset. -/
def Obligations.ResultAndIterChangeOnlyAtCompletion : Prop :=
  ∀ (P : Params) (s t : State), stepWith P s = .next t →
    (t.regs.result ≠ s.regs.result →
      (∃ evs, s.bus.agenda = .resetAssert :: evs) ∨
      (s.eng.fsm ≠ .idle ∧ (s.bus.agenda = [] ∨ ∃ evs, s.bus.agenda = .engine :: evs) ∧
        t.eng.fsm = .idle ∧ t.regs.status.busy = false ∧ t.regs.status.done = true ∧
        t.regs.status.err = false ∧ t.regs.status.errcode = 0)) ∧
    (t.regs.iter ≠ s.regs.iter →
      (∃ evs, s.bus.agenda = .resetAssert :: evs) ∨
      (((s.eng.fsm ≠ .idle ∧ (s.bus.agenda = [] ∨ ∃ evs, s.bus.agenda = .engine :: evs)) ∨
          (∃ v evs, s.bus.agenda = .access (.write 0x00 8 v) :: evs ∧ s.regs.status.busy = false ∧
            decode v ≠ .ok .nop ∧ t.regs.iter = 0 ∧ t.regs.status.err = true)) ∧
        t.eng.fsm = .idle ∧ t.regs.status.busy = false ∧ t.regs.status.done = true))

/-- R30: the operand registers change only at a host write of their slot, which stores the written word,
and at reset; the same holds of WALK_LIMIT (R33) and CTRL.IE (R29). The engine never writes them. -/
def Obligations.OperandRegistersChangeOnlyByHost : Prop :=
  ∀ (P : Params) (s t : State), stepWith P s = .next t →
    (∃ evs, s.bus.agenda = .resetAssert :: evs) ∨
    ((t.regs.x = s.regs.x ∨ ∃ evs, s.bus.agenda = .access (.write 0x18 8 t.regs.x) :: evs) ∧
     (t.regs.n = s.regs.n ∨ ∃ evs, s.bus.agenda = .access (.write 0x20 8 t.regs.n) :: evs) ∧
     (t.regs.key = s.regs.key ∨ ∃ evs, s.bus.agenda = .access (.write 0x28 8 t.regs.key) :: evs) ∧
     (t.regs.keyLo = s.regs.keyLo ∨
       ∃ evs, s.bus.agenda = .access (.write 0x30 8 t.regs.keyLo) :: evs) ∧
     (t.regs.keyHi = s.regs.keyHi ∨
       ∃ evs, s.bus.agenda = .access (.write 0x38 8 t.regs.keyHi) :: evs) ∧
     (t.regs.walkLimit = s.regs.walkLimit ∨
       ∃ evs, s.bus.agenda = .access (.write 0x50 8 t.regs.walkLimit) :: evs) ∧
     (t.regs.ie = s.regs.ie ∨
       ∃ v evs, s.bus.agenda = .access (.write 0x10 8 v) :: evs ∧ v.getLsbD 0 = t.regs.ie))

/-- R23: BUSY rises only at a CMD write on an idle engine of a word that decodes to MIX, FEISTEL or FPE,
and falls only at an engine step or at reset. -/
def Obligations.BusyRisesAtAcceptanceOnly : Prop :=
  ∀ (P : Params) (s t : State), Inv s → stepWith P s = .next t →
    (s.regs.status.busy = false → t.regs.status.busy = true →
      ∃ v evs i, s.bus.agenda = .access (.write 0x00 8 v) :: evs ∧ decode v = .ok i ∧ i ≠ .nop ∧
        s.eng.fsm = .idle ∧ t.eng.fsm ≠ .idle) ∧
    (s.regs.status.busy = true → t.regs.status.busy = false →
      s.eng.fsm ≠ .idle ∧ t.eng.fsm = .idle ∧
      (s.bus.agenda = [] ∨ (∃ evs, s.bus.agenda = .engine :: evs) ∨
        ∃ evs, s.bus.agenda = .resetAssert :: evs))

/-- R206: the machine faults exactly when, with the reset input released, the next event is a host access
of a width other than 8, a misaligned offset or an offset `≥ 0x80`, and the fault names that access. That
no such access faults while reset is asserted is the model's choice: it is refused then (R232, log
entry 7). -/
def Obligations.OnlyBusErrorsFault : Prop :=
  ∀ (P : Params) (s : State) (f : Fault),
    stepWith P s = .fault f ↔
      ∃ a evs, s.bus.agenda = .access a :: evs ∧ s.bus.resetIn = false ∧ f = .busError a ∧
        ((∃ off width, a = .read off width ∧ (width ≠ 8 ∨ off % 8 ≠ 0 ∨ 0x80 ≤ off)) ∨
         (∃ off width v, a = .write off width v ∧ (width ≠ 8 ∨ off % 8 ≠ 0 ∨ 0x80 ≤ off)))

/-- R210: the order in which the conditions on one host access are taken, only the first having an
effect. -/
def Obligations.ConditionPriority : Prop :=
  ∀ (s : State) (v : Word),
    (∀ off width, width ≠ 8 ∨ off % 8 ≠ 0 ∨ 0x80 ≤ off →
      hostAccess (.read off width) s = .fault (.busError (.read off width)) ∧
      hostAccess (.write off width v) s = .fault (.busError (.write off width v))) ∧
    (s.regs.status.busy = true → hostAccess (.write 0x00 8 v) s =
      .next { s with regs := { s.regs with status := { s.regs.status with ovr := true } } }) ∧
    (s.regs.status.busy = false →
      (decode v = .ok .nop → hostAccess (.write 0x00 8 v) s = .next s) ∧
      ((∃ e, decode v = .error e) →
        ∃ t, hostAccess (.write 0x00 8 v) s = .next t ∧ t.regs.status.errcode = 1) ∧
      (∀ lb rb, decode v = .ok (.feistel lb rb) → (lb = 0 ∨ rb = 0 ∨ 64 < lb + rb) →
        ∃ t, hostAccess (.write 0x00 8 v) s = .next t ∧ t.regs.status.errcode = 2) ∧
      (decode v = .ok .fpe → s.regs.n = 0 →
        ∃ t, hostAccess (.write 0x00 8 v) s = .next t ∧ t.regs.status.errcode = 3) ∧
      (decode v = .ok .fpe → s.regs.n ≠ 0 → s.regs.n.toNat ≤ s.regs.x.toNat →
        ∃ t, hostAccess (.write 0x00 8 v) s = .next t ∧ t.regs.status.errcode = 4))

/-- R208: `irq` is the level CTRL.IE AND STATUS.DONE: every completion makes DONE pending, a STATUS write
with bit 1 set or the acceptance of a command clears it, NOP does not, and CTRL.IE = 0 masks it while
DONE stays. -/
def Obligations.InterruptLevel : Prop :=
  (∀ s : State, irq s = (s.regs.ie && s.regs.status.done)) ∧ State.reset.regs.ie = false ∧
  (∀ (P : Params) (s : State), s.eng.fsm ≠ .idle → (engineStep P s).eng.fsm = .idle →
    (engineStep P s).regs.status.done = true ∧ irq (engineStep P s) = s.regs.ie) ∧
  (∀ (v : Word) (s : State), v.getLsbD 1 = true →
    ∃ t, hostAccess (.write 0x08 8 v) s = .next t ∧ irq t = false) ∧
  (∀ (i : Instr) (s : State), s.regs.status.busy = false → i ≠ .nop →
    ∃ t, exec i s = .next t ∧ (t.regs.status.busy = true → irq t = false) ∧
      (t.regs.status.busy = false → t.regs.status.err = true ∧ irq t = s.regs.ie)) ∧
  (∀ s : State, s.regs.status.busy = false → ∃ t, exec .nop s = .next t ∧ irq t = irq s) ∧
  (∀ (v : Word) (s : State), v.getLsbD 0 = false →
    ∃ t, hostAccess (.write 0x10 8 v) s = .next t ∧ irq t = false ∧
      t.regs.status.done = s.regs.status.done)

/-- R68: a host that writes back to STATUS only the bits it read set cannot clear a bit set after its
read. -/
def Obligations.WriteBackKeepsLaterBits : Prop :=
  ∀ (read now : Status),
    (now.done = true → read.done = false →
      (statusAfterWrite (statusWord read) now).done = true) ∧
    (now.err = true → read.err = false → (statusAfterWrite (statusWord read) now).err = true) ∧
    (now.ovr = true → read.ovr = false → (statusAfterWrite (statusWord read) now).ovr = true)

/-- R19, R103, R240: while a command runs, no sequence of accesses by the host, interleaved with the
engine's turns in any way, changes what the engine computes or what its completion records. -/
def Obligations.RunningCommandIgnoresHost : Prop :=
  ∀ (P : Params) (s : State) (evs rest : List Event), Inv s →
    s.regs.status.busy = true → s.bus.resetIn = false →
    (∀ ev ∈ evs, ev.quiet = true) →
    s.bus.agenda = evs ++ .engine :: rest →
    (∀ j, j ≤ engineTurns evs → (engineSteps P j s).eng.fsm ≠ .idle) →
    ∃ t, runWith P (evs.length + 1) s = .next t ∧
      t.eng = (engineSteps P (engineTurns evs + 1) s).eng ∧
      t.regs.result = (engineSteps P (engineTurns evs + 1) s).regs.result ∧
      t.regs.iter = (engineSteps P (engineTurns evs + 1) s).regs.iter ∧
      t.regs.status.busy = (engineSteps P (engineTurns evs + 1) s).regs.status.busy ∧
      t.regs.status.done = (engineSteps P (engineTurns evs + 1) s).regs.status.done ∧
      t.regs.status.err = (engineSteps P (engineTurns evs + 1) s).regs.status.err ∧
      t.regs.status.errcode = (engineSteps P (engineTurns evs + 1) s).regs.status.errcode

/-- R91: `run.mix` under any interleaving that gives the engine a turn before the last poll: that poll
reads BUSY 0, and the read of RESULT gives `MIX(klo, khi, x)`. -/
def Obligations.RunMixReadsMix : Prop :=
  ∀ (P : Params) (s : State) (klo khi x : Word) (turns : List Nat), Inv s →
    s.regs.status.busy = false → s.bus.resetIn = false → s.regs.status.ovr = false →
    turns ≠ [] → 1 ≤ turns.sum →
    s.bus.agenda = runMix klo khi x turns →
    ∃ t earlier, runWith P (runMix klo khi x turns).length s = .next t ∧
      t.bus.agenda = [] ∧ t.bus.reads = P.mix klo khi x :: 0x2 :: earlier

/-- R91: `run.feistel` with legal widths, under any interleaving with at least four engine turns before
the last poll: the read of RESULT gives `FEISTEL4(x, lb, rb, k)`. -/
def Obligations.RunFeistelReadsFeistel4 : Prop :=
  ∀ (P : Params) (s : State) (x k : Word) (lb rb : Nat) (turns : List Nat), Inv s →
    s.regs.status.busy = false → s.bus.resetIn = false → s.regs.status.ovr = false →
    1 ≤ lb ∧ 1 ≤ rb ∧ lb + rb ≤ 64 → turns ≠ [] → 4 ≤ turns.sum →
    s.bus.agenda = runFeistel x lb rb k turns →
    ∃ t earlier, runWith P (runFeistel x lb rb k turns).length s = .next t ∧
      t.bus.agenda = [] ∧ t.bus.reads = feistel4 P.roundF x lb rb k :: 0x2 :: earlier

/-! ## Frames -/

/-- What the CMD write of any legal word leaves unchanged: the operand registers, CTRL, WALK_LIMIT,
RESULT, the bus, every byte of the window outside STATUS and ITER; ITER too unless a check failed; OVR
too on an idle engine; on a busy engine everything but OVR; NOP changes no internal state (R101, R103,
R107, R108). -/
def Obligations.AcceptanceFrame : Prop :=
  ∀ (i : Instr) (s t : State), exec i s = .next t →
    SameHostWritten s.regs t.regs ∧ t.regs.result = s.regs.result ∧ t.bus = s.bus ∧
    (∀ a, ¬ (0x08 ≤ a ∧ a < 0x10) → ¬ (0x48 ≤ a ∧ a < 0x50) →
      windowByte t.regs a = windowByte s.regs a) ∧
    (t.regs.iter = s.regs.iter ∨
      (s.regs.status.busy = false ∧ t.regs.iter = 0 ∧ t.regs.status.err = true)) ∧
    (s.regs.status.busy = false → t.regs.status.ovr = s.regs.status.ovr) ∧
    (s.regs.status.busy = true →
      t.eng = s.eng ∧ t.regs.iter = s.regs.iter ∧ t.regs.status.busy = true ∧
      t.regs.status.done = s.regs.status.done ∧ t.regs.status.err = s.regs.status.err ∧
      t.regs.status.errcode = s.regs.status.errcode) ∧
    (i = .nop → t.eng = s.eng ∧ t.regs.status.busy = s.regs.status.busy ∧
      t.regs.status.done = s.regs.status.done ∧ t.regs.status.err = s.regs.status.err ∧
      t.regs.status.errcode = s.regs.status.errcode ∧ t.regs.iter = s.regs.iter) ∧
    (i ≠ .nop → s.regs.status.busy = false → Latched t.eng s.regs) ∧
    (i = .mix → t.regs.iter = s.regs.iter ∧ t.eng.lb = s.eng.lb ∧ t.eng.rb = s.eng.rb ∧
      t.eng.w = s.eng.w ∧ t.eng.round = s.eng.round ∧ t.eng.iter = s.eng.iter)

/-- What an engine step leaves unchanged: the operand registers, CTRL, WALK_LIMIT, OVR, the bus, every
latched operand, the widths and the command; every byte of the window outside STATUS, RESULT and ITER;
and, unless it completes, every register (R30, R41, R103). -/
def Obligations.EngineStepFrame : Prop :=
  ∀ (P : Params) (s : State),
    SameHostWritten s.regs (engineStep P s).regs ∧
    (engineStep P s).regs.status.ovr = s.regs.status.ovr ∧
    (engineStep P s).bus = s.bus ∧
    (engineStep P s).eng.op = s.eng.op ∧ (engineStep P s).eng.x = s.eng.x ∧
    (engineStep P s).eng.n = s.eng.n ∧ (engineStep P s).eng.k = s.eng.k ∧
    (engineStep P s).eng.klo = s.eng.klo ∧ (engineStep P s).eng.khi = s.eng.khi ∧
    (engineStep P s).eng.limit = s.eng.limit ∧ (engineStep P s).eng.lb = s.eng.lb ∧
    (engineStep P s).eng.rb = s.eng.rb ∧
    (∀ a, ¬ (0x08 ≤ a ∧ a < 0x10) → ¬ (0x40 ≤ a ∧ a < 0x50) →
      windowByte (engineStep P s).regs a = windowByte s.regs a) ∧
    ((engineStep P s).eng.fsm ≠ .idle → (engineStep P s).regs = s.regs)

/-! ## Reset -/

/-- R42: the value of every piece of state after reset, and of every host read. -/
def Obligations.ResetValues : Prop :=
  State.reset.regs.status = { busy := false, done := false, err := false, ovr := false, errcode := 0 } ∧
  State.reset.regs.ie = false ∧ State.reset.regs.x = 0 ∧ State.reset.regs.n = 0 ∧
  State.reset.regs.key = 0 ∧ State.reset.regs.keyLo = 0 ∧ State.reset.regs.keyHi = 0 ∧
  State.reset.regs.result = 0 ∧ State.reset.regs.iter = 0 ∧ State.reset.regs.walkLimit = 0 ∧
  State.reset.eng.fsm = .idle ∧ State.reset.eng.op = .mix ∧ State.reset.eng.x = 0 ∧
  State.reset.eng.n = 0 ∧ State.reset.eng.k = 0 ∧ State.reset.eng.klo = 0 ∧
  State.reset.eng.khi = 0 ∧ State.reset.eng.limit = 0 ∧ State.reset.eng.w = 0 ∧
  State.reset.eng.iter = 0 ∧ State.reset.eng.lb = 0 ∧ State.reset.eng.rb = 0 ∧
  State.reset.eng.round = 0 ∧ irq State.reset = false ∧
  ∀ off, readWindow State.reset.regs off = 0

/-- R230: asserting reset, in any state, is one step that sets every register and every internal field to
its reset value; a running command does not complete and `irq` is 0. -/
def Obligations.ResetSetsEverything : Prop :=
  ∀ (P : Params) (s : State) (evs : List Event), s.bus.agenda = .resetAssert :: evs →
    ∃ t, stepWith P s = .next t ∧ t.regs = State.reset.regs ∧ t.eng = State.reset.eng ∧
      t.regs.status.done = false ∧ irq t = false

/-- The model's choice of log entry 7 (I16 of 93_implementation_defined.md asks for a refusal): the reset
input is held as a level, and its assertion keeps the rest of the agenda and the values already read; a
host access while it is asserted is refused by name; releasing it changes nothing else. -/
def Obligations.AccessDuringResetIsRefused : Prop :=
  ∀ (P : Params) (s : State) (evs : List Event),
    (s.bus.agenda = .resetAssert :: evs →
      ∃ t, stepWith P s = .next t ∧ t.bus = { s.bus with agenda := evs, resetIn := true }) ∧
    (∀ a, s.bus.resetIn = true → s.bus.agenda = .access a :: evs →
      stepWith P s = .refused (.accessDuringReset a)) ∧
    (s.bus.agenda = .resetRelease :: evs →
      stepWith P s = .next { s with bus := { s.bus with agenda := evs, resetIn := false } })

/-! ## Steps and runs -/

/-- A step runs the decoded command: when the next event is a CMD write of a legal word, with the reset
input released, the step is `exec` of the command at the state whose agenda has moved on (R100). -/
def Obligations.StepRunsDecodedCommand : Prop :=
  ∀ (P : Params) (s : State) (v : Word) (i : Instr) (evs : List Event),
    s.bus.resetIn = false → s.bus.agenda = .access (.write 0x00 8 v) :: evs → decode v = .ok i →
    stepWith P s = exec i { s with bus := { s.bus with agenda := evs } } ∧
    step s = exec i { s with bus := { s.bus with agenda := evs } }

/-- The engine's turn is its step, and with no event to come the machine's step is the engine's; an idle
engine keeps all its state (R36, R64, R219; log entries 4 and 16). -/
def Obligations.EngineTurnStepsEngine : Prop :=
  ∀ (P : Params) (s : State),
    (∀ evs, s.bus.agenda = .engine :: evs →
      stepWith P s = .next (engineStep P { s with bus := { s.bus with agenda := evs } })) ∧
    (s.bus.agenda = [] → stepWith P s = .next (engineStep P s)) ∧
    (s.eng.fsm = .idle → engineStep P s = s)

/-- Every step keeps the structural invariant (R37). -/
def Obligations.EveryStepKeepsInv : Prop :=
  ∀ (P : Params) (s t : State), Inv s → stepWith P s = .next t → Inv t

/-- Both invariants hold right after reset. -/
def Obligations.InvAtReset : Prop :=
  Inv State.reset ∧ ∀ P : Params, WalkInv P State.reset

/-- Every step keeps the meaning of the working block: the value after `e.iter` applications and
`e.round` rounds of the latched input, every finished application of a walk at or above `n`, and the
count below the cap (R146, R177; that `e.iter` never wraps is R181). -/
def Obligations.EveryStepKeepsWalkInv : Prop :=
  ∀ (P : Params) (s t : State), Inv s → WalkInv P s → stepWith P s = .next t → WalkInv P t

/-- R220: a busy engine left to itself completes, within four steps for each of at most `2^63`
applications, and never stops on the way. That the engine moves whenever no event is to come is the
model's choice (R66's weak fairness, log entry 16). -/
def Obligations.BusyEngineCompletes : Prop :=
  ∀ (P : Params) (s : State), Inv s → WalkInv P s → s.regs.status.busy = true → s.bus.agenda = [] →
    ∃ m t, m ≤ 4 * 2 ^ 63 ∧ runWith P m s = .next t ∧ t.eng.fsm = .idle ∧
      t.regs.status.busy = false ∧ t.regs.status.done = true

/-- A host whose accesses are all legal, and none of which falls while reset is asserted, never meets a
fault or a refusal, whatever else it does, however its accesses fall between the engine's steps and
wherever reset is asserted and released (R206, R213, R220, R232). -/
def Obligations.LegalHostNeverStops : Prop :=
  ∀ (P : Params) (s : State), agendaLegal s.bus.resetIn s.bus.agenda = true → SafeRun P s

/-- R91: `run.fpe` under any interleaving that gives the engine the turns of the outcome `FPEWALK` before
the last poll: that poll and the read of STATUS after it read the outcome's STATUS (BUSY 0), then RESULT
and ITER read the outcome's, RESULT being the old one after an error. -/
def Obligations.RunFpeReadsWalk : Prop :=
  ∀ (P : Params) (s : State) (x n k : Word) (turns : List Nat),
    s.regs.status.busy = false → s.bus.resetIn = false → turns ≠ [] →
    ∃ o, fpeWalk P.roundF x n k s.regs.walkLimit = some o ∧
      (fpeTurns n o ≤ turns.sum → s.bus.agenda = runFpe x n k turns →
        ∃ t earlier, runWith P (runFpe x n k turns).length s = .next t ∧ t.bus.agenda = [] ∧
          t.bus.reads =
            (outcomeRegs s.regs o).iter :: (outcomeRegs s.regs o).result ::
              statusWord (outcomeRegs s.regs o).status ::
                statusWord (outcomeRegs s.regs o).status :: earlier)
end

