-- ==== Sys2Proof/Laws/Datapath.lean ====
section
/-! SUPPORT. The datapath read as integer arithmetic. -/

namespace Sys2Proof.Machine

theorem mask_toNat {b : Nat} (h : b ≤ 64) : (mask b).toNat = 2 ^ b - 1 := by
  have : 2 ^ b ≤ 2 ^ 64 := Nat.pow_le_pow_right (by decide) h
  simp only [mask, BitVec.toNat_ofNat]
  exact Nat.mod_eq_of_lt (by have := Nat.two_pow_pos b; omega)

/-- Masking keeps the low bits. -/
theorem and_mask_toNat (w : Word) {b : Nat} (h : b ≤ 64) : (w &&& mask b).toNat = w.toNat % 2 ^ b := by
  rw [BitVec.toNat_and, mask_toNat h, Nat.and_two_pow_sub_one_eq_mod]

theorem ushiftRight_toNat (w : Word) (b : Nat) : (w >>> b).toNat = w.toNat / 2 ^ b := by
  rw [BitVec.toNat_ushiftRight, Nat.shiftRight_eq_div_pow]

/-- `CLOG2(n)` is a least exponent (R15). -/
theorem clog2_eq_find (n : Nat) :
    clog2 n = ((List.range 65).find? (fun b => decide (n ≤ 2 ^ b))).getD 64 := rfl

theorem widths_sum (n : Nat) : (widths n).1 + (widths n).2 = clog2 n := by
  simp only [widths]
  omega

theorem widths_le (n : Nat) : (widths n).1 ≤ (widths n).2 := by
  simp only [widths]
  omega

/-- Rounds compose. -/
theorem feistelRounds_add (F : Word → Word → Word) (lb rb : Nat) (k : Word) (a b : Nat) (w : Word) :
    feistelRounds F lb rb k (a + b) w =
      feistelRounds F lb rb k b (feistelRounds F lb rb k a w) := by
  induction a generalizing w with
  | zero => rw [Nat.zero_add]; rfl
  | succ a ih => rw [Nat.add_right_comm, feistelRounds, ih, feistelRounds]

/-- Applications compose. -/
theorem feistel4Iter_add (F : Word → Word → Word) (lb rb : Nat) (k : Word) (a b : Nat) (w : Word) :
    feistel4Iter F lb rb k (a + b) w =
      feistel4Iter F lb rb k b (feistel4Iter F lb rb k a w) := by
  induction a generalizing w with
  | zero => rw [Nat.zero_add]; rfl
  | succ a ih => rw [Nat.add_right_comm, feistel4Iter, ih, feistel4Iter]

/-- The round as integer arithmetic: the low `rb` bits of the block move up by `lb`, and the low bits
of the mixed left part come in below (R141). -/
theorem feistelRound_toNat (F : Word → Word → Word) (w k : Word) {lb rb : Nat}
    (h : lb + rb ≤ 64) :
    (feistelRound F w lb rb k).toNat =
      (w.toNat % 2 ^ rb) * 2 ^ lb |||
        ((w.toNat / 2 ^ rb % 2 ^ lb ^^^ (F k (w &&& mask rb)).toNat) % 2 ^ lb) % 2 ^ rb := by
  have hr : w.toNat % 2 ^ rb < 2 ^ rb := Nat.mod_lt _ (Nat.two_pow_pos rb)
  have hfit : (w.toNat % 2 ^ rb) * 2 ^ lb < 2 ^ 64 :=
    calc (w.toNat % 2 ^ rb) * 2 ^ lb < 2 ^ rb * 2 ^ lb :=
          Nat.mul_lt_mul_of_pos_right hr (Nat.two_pow_pos lb)
      _ = 2 ^ (rb + lb) := (Nat.pow_add 2 rb lb).symm
      _ ≤ 2 ^ 64 := Nat.pow_le_pow_right (by decide) (by omega)
  have hlb : lb ≤ 64 := by omega
  have hrb : rb ≤ 64 := by omega
  simp only [feistelRound]
  rw [BitVec.toNat_or, BitVec.toNat_shiftLeft, and_mask_toNat _ hrb, and_mask_toNat _ hrb,
    and_mask_toNat _ hlb, BitVec.toNat_xor, and_mask_toNat _ hlb, ushiftRight_toNat,
    Nat.shiftLeft_eq, Nat.mod_eq_of_lt hfit]

/-- The round as a sum: the two halves do not overlap (R143). -/
theorem feistelRound_toNat_add (F : Word → Word → Word) (w k : Word) {lb rb : Nat}
    (h : lb + rb ≤ 64) :
    (feistelRound F w lb rb k).toNat =
      (w.toNat % 2 ^ rb) * 2 ^ lb +
        ((w.toNat / 2 ^ rb % 2 ^ lb ^^^ (F k (w &&& mask rb)).toNat) % 2 ^ lb) % 2 ^ rb := by
  rw [feistelRound_toNat F w k h, Nat.mul_comm]
  exact (Nat.two_pow_add_eq_or_of_lt
    (lt_of_le_of_lt (Nat.mod_le _ _) (Nat.mod_lt _ (Nat.two_pow_pos lb))) _).symm

/-- A round's value lies in the embedding domain. -/
theorem feistelRound_lt (F : Word → Word → Word) (w k : Word) {lb rb : Nat}
    (h : lb + rb ≤ 64) : (feistelRound F w lb rb k).toNat < 2 ^ (lb + rb) := by
  rw [feistelRound_toNat_add F w k h]
  have hr : w.toNat % 2 ^ rb + 1 ≤ 2 ^ rb := Nat.mod_lt _ (Nat.two_pow_pos rb)
  have ht := lt_of_le_of_lt
    (Nat.mod_le ((w.toNat / 2 ^ rb % 2 ^ lb ^^^ (F k (w &&& mask rb)).toNat) % 2 ^ lb) (2 ^ rb))
    (Nat.mod_lt _ (Nat.two_pow_pos lb))
  have hmul := Nat.mul_le_mul_right (2 ^ lb) hr
  rw [Nat.add_mul] at hmul
  rw [Nat.pow_add, Nat.mul_comm (2 ^ lb)]
  omega

end Sys2Proof.Machine
end

