-- ==== Sys2Proof/Laws/PerInstr.lean ====
section
/-! SUPPORT. What holds of every command, one lemma per constructor: the encoder leaves every reserved bit
0 (30_encoding.md R80, R83). -/

namespace Sys2Proof.Laws.EncodeReserved

/-- A well-formed command's word has no reserved bit set. -/
def Statement (i : Instr) : Prop := i.wf = true → reservedSet (encode i) = false

theorem nop : Statement .nop := fun _ => by decide

theorem mix : Statement .mix := fun _ => by decide

/-- The bits of a FEISTEL word, as integers. -/
theorem feistel_toNat {lb rb : Nat} (hl : lb < 128) (hr : rb < 128) :
    (encode (.feistel lb rb)).toNat = 2 + lb * 2 ^ 8 + rb * 2 ^ 16 := by
  have hl' : lb % 2 ^ 64 = lb := Nat.mod_eq_of_lt (by omega)
  have hr' : rb % 2 ^ 64 = rb := Nat.mod_eq_of_lt (by omega)
  simp only [encode, commandWord, BitVec.toNat_or, BitVec.toNat_shiftLeft, BitVec.toNat_ofNat,
    hl', hr', Nat.shiftLeft_eq]
  rw [Nat.mod_eq_of_lt (show lb * 2 ^ 8 < 2 ^ 64 by omega),
    Nat.mod_eq_of_lt (show rb * 2 ^ 16 < 2 ^ 64 by omega),
    show 2 % 2 ^ 64 = 2 from rfl, Nat.or_comm 2, ← Nat.mul_comm (2 ^ 8) lb,
    ← Nat.two_pow_add_eq_or_of_lt (show 2 < 2 ^ 8 by decide), Nat.or_comm,
    ← Nat.mul_comm (2 ^ 16) rb,
    ← Nat.two_pow_add_eq_or_of_lt (show 2 ^ 8 * lb + 2 < 2 ^ 16 by omega)]
  omega

theorem feistel (lb rb : Nat) : Statement (.feistel lb rb) := by
  intro hwf
  have h : lb < 128 ∧ rb < 128 := by simpa [Instr.wf] using hwf
  have hn := feistel_toNat h.1 h.2
  have h4 : (encode (.feistel lb rb)).extractLsb' 4 4 = 0 := by
    apply BitVec.eq_of_toNat_eq
    rw [BitVec.extractLsb'_toNat, hn, Nat.shiftRight_eq_div_pow]
    show _ = 0
    omega
  have h15 : (encode (.feistel lb rb)).getLsbD 15 = false := by
    rw [BitVec.getLsbD, hn, Nat.testBit_eq_decide_div_mod_eq]
    simp only [decide_eq_false_iff_not]
    omega
  have h23 : (encode (.feistel lb rb)).extractLsb' 23 41 = 0 := by
    apply BitVec.eq_of_toNat_eq
    rw [BitVec.extractLsb'_toNat, hn, Nat.shiftRight_eq_div_pow]
    show _ = 0
    omega
  rw [reservedSet, h4, h15, h23]
  rfl

theorem fpe : Statement .fpe := fun _ => by decide

end Sys2Proof.Laws.EncodeReserved
end

