-- ==== Sys2Proof/Laws/State.lean ====
section
/-! SUPPORT. What each update of the state leaves in each part of it, so that no proof unfolds a record
update: the plain updates of Machine/State.lean and the shared operations over them. -/

namespace Sys2Proof.Machine

section updates
variable (s : State) (r : Regs) (st : Status) (e : Engine) (evs : List Event) (v : Word) (b : Bool)

@[simp] theorem withRegs_regs : (s.withRegs r).regs = r := rfl
@[simp] theorem withRegs_eng : (s.withRegs r).eng = s.eng := rfl
@[simp] theorem withRegs_bus : (s.withRegs r).bus = s.bus := rfl
@[simp] theorem withStatus_regs : (s.withStatus st).regs = { s.regs with status := st } := rfl
@[simp] theorem withStatus_eng : (s.withStatus st).eng = s.eng := rfl
@[simp] theorem withStatus_bus : (s.withStatus st).bus = s.bus := rfl
@[simp] theorem withEng_regs : (s.withEng e).regs = s.regs := rfl
@[simp] theorem withEng_eng : (s.withEng e).eng = e := rfl
@[simp] theorem withEng_bus : (s.withEng e).bus = s.bus := rfl
@[simp] theorem withAgenda_regs : (s.withAgenda evs).regs = s.regs := rfl
@[simp] theorem withAgenda_eng : (s.withAgenda evs).eng = s.eng := rfl
@[simp] theorem withAgenda_bus : (s.withAgenda evs).bus = { s.bus with agenda := evs } := rfl
@[simp] theorem reply_regs : (s.reply v).regs = s.regs := rfl
@[simp] theorem reply_eng : (s.reply v).eng = s.eng := rfl
@[simp] theorem reply_bus : (s.reply v).bus = { s.bus with reads := v :: s.bus.reads } := rfl
@[simp] theorem withResetIn_regs : (s.withResetIn b).regs = s.regs := rfl
@[simp] theorem withResetIn_eng : (s.withResetIn b).eng = s.eng := rfl
@[simp] theorem withResetIn_bus : (s.withResetIn b).bus = { s.bus with resetIn := b } := rfl

end updates

section operations
variable (s : State) (v it : Word) (c : ErrorCode) (op : Op) (ph : Fsm) (lb rb : Nat)

@[simp] theorem completeOk_regs : (completeOk v it s).regs =
    { s.regs with
      result := v, iter := it
      status := { s.regs.status with errcode := 0, err := false, done := true, busy := false } } := rfl
@[simp] theorem completeOk_eng : (completeOk v it s).eng = { s.eng with fsm := .idle } := rfl
@[simp] theorem completeOk_bus : (completeOk v it s).bus = s.bus := rfl
@[simp] theorem completeError_regs : (completeError c it s).regs =
    { s.regs with
      iter := it
      status := { s.regs.status with
        errcode := c.code, err := true, done := true, busy := false } } := rfl
@[simp] theorem completeError_eng : (completeError c it s).eng = { s.eng with fsm := .idle } := rfl
@[simp] theorem completeError_bus : (completeError c it s).bus = s.bus := rfl
@[simp] theorem latch_regs : (latch s).regs = s.regs := rfl
@[simp] theorem latch_eng : (latch s).eng =
    { s.eng with
      x := s.regs.x, n := s.regs.n, k := s.regs.key
      klo := s.regs.keyLo, khi := s.regs.keyHi, limit := s.regs.walkLimit } := rfl
@[simp] theorem latch_bus : (latch s).bus = s.bus := rfl
@[simp] theorem accept_regs : (accept s).regs =
    { s.regs with
      status := { s.regs.status with done := false, err := false, errcode := 0 } } := rfl
@[simp] theorem accept_eng : (accept s).eng = (latch s).eng := rfl
@[simp] theorem accept_bus : (accept s).bus = s.bus := rfl
@[simp] theorem startRunning_regs : (startRunning op ph s).regs =
    { s.regs with status := { s.regs.status with busy := true } } := rfl
@[simp] theorem startRunning_eng : (startRunning op ph s).eng =
    { s.eng with op := op, fsm := ph } := rfl
@[simp] theorem startRunning_bus : (startRunning op ph s).bus = s.bus := rfl
@[simp] theorem loadRounds_regs : (loadRounds lb rb s).regs = s.regs := rfl
@[simp] theorem loadRounds_eng : (loadRounds lb rb s).eng =
    { s.eng with lb := lb, rb := rb, w := s.eng.x, round := 0, iter := 0 } := rfl
@[simp] theorem loadRounds_bus : (loadRounds lb rb s).bus = s.bus := rfl
@[simp] theorem lostCommand_regs : (lostCommand s).regs =
    { s.regs with status := { s.regs.status with ovr := true } } := rfl
@[simp] theorem lostCommand_eng : (lostCommand s).eng = s.eng := rfl
@[simp] theorem lostCommand_bus : (lostCommand s).bus = s.bus := rfl
@[simp] theorem statusWrite_regs : (statusWrite v s).regs =
    { s.regs with status := statusAfterWrite v s.regs.status } := rfl
@[simp] theorem statusWrite_eng : (statusWrite v s).eng = s.eng := rfl
@[simp] theorem statusWrite_bus : (statusWrite v s).bus = s.bus := rfl
@[simp] theorem ctrlWrite_regs : (ctrlWrite v s).regs = { s.regs with ie := v.getLsbD 0 } := rfl
@[simp] theorem ctrlWrite_eng : (ctrlWrite v s).eng = s.eng := rfl
@[simp] theorem ctrlWrite_bus : (ctrlWrite v s).bus = s.bus := rfl
@[simp] theorem applyReset_regs : (applyReset s).regs = .reset := rfl
@[simp] theorem applyReset_eng : (applyReset s).eng = .reset := rfl
@[simp] theorem applyReset_bus : (applyReset s).bus = s.bus := rfl

end operations

/-- A busy engine loses the command. -/
theorem present_busy {act : State → State} {s : State} (h : s.regs.status.busy = true) :
    present act s = lostCommand s := by simp [present, h]

/-- An idle engine takes the command. -/
theorem present_idle {act : State → State} {s : State} (h : s.regs.status.busy = false) :
    present act s = act s := by simp [present, h]

end Sys2Proof.Machine
end

