-- ==== Sys2Proof/Laws/Step.lean ====
section
/-! SUPPORT. Once for each shared operation, everything it can do: a command's presentation, a host
write, a host access, an engine step, a machine step. Proofs cite these instead of unfolding. -/

namespace Sys2Proof.Machine

open Host (Outcome)

/-- The effect of a command on an idle engine. -/
def actOf : Instr → State → State
  | .nop, s => s
  | .mix, s => acceptMix (accept s)
  | .feistel lb rb, s => acceptFeistel lb rb (accept s)
  | .fpe, s => acceptFpe (accept s)

/-- Every command's meaning is the presentation of its own effect. -/
theorem exec_eq (i : Instr) (s : State) : exec i s = .next (present (actOf i) s) := by
  cases i <;> rfl

/-- While busy, every word is lost. -/
theorem command_busy {s : State} (v : Word) (h : s.regs.status.busy = true) :
    command v s = .next (lostCommand s) := by simp [command, h]

/-- A legal word's command runs its meaning, busy or not. -/
theorem command_legal {v : Word} {i : Instr} (s : State) (h : decode v = .ok i) :
    command v s = exec i s := by
  cases hb : s.regs.status.busy
  · simp [command, hb, h]
  · rw [command_busy v hb, exec_eq, present_busy hb]

/-- An illegal word completes at once when the engine is idle. -/
theorem command_illegal {v : Word} {e : Reject} {s : State} (hb : s.regs.status.busy = false)
    (h : decode v = .error e) : command v s = .next (illegalCommand s) := by
  simp [command, hb, h]

/-- A CMD write always gives a next state: the word lost, the command's effect, or ILLEGAL_CMD. -/
theorem command_cases {v : Word} {s : State} {o : Outcome State Fault Refusal}
    (h : command v s = o) :
    (s.regs.status.busy = true ∧ o = .next (lostCommand s)) ∨
    (s.regs.status.busy = false ∧ ∃ i, decode v = .ok i ∧ o = .next (actOf i s)) ∨
    (s.regs.status.busy = false ∧ (∃ e, decode v = .error e) ∧ o = .next (illegalCommand s)) := by
  subst h
  cases hb : s.regs.status.busy
  · cases hd : decode v with
    | ok i =>
      exact .inr (.inl ⟨rfl, i, rfl, by rw [command_legal s hd, exec_eq, present_idle hb]⟩)
    | error e => exact .inr (.inr ⟨rfl, ⟨e, rfl⟩, command_illegal hb hd⟩)
  · exact .inl ⟨rfl, command_busy v hb⟩

/-- A slot's register and its offset determine each other. -/
theorem Reg.atOffset_eq_some {off : Nat} {r : Reg} : Reg.atOffset off = some r ↔ off = r.offset := by
  constructor
  · intro h
    unfold Reg.atOffset at h
    split at h <;> simp_all [Reg.offset] <;> (subst h; rfl)
  · rintro rfl
    cases r <;> rfl

/-- A host write at any offset: a command, a register write, or nothing at a reserved slot. -/
theorem hostWrite_cases {off : Nat} {v : Word} {s : State} {o : Outcome State Fault Refusal}
    (h : hostWrite off v s = o) :
    (off = Reg.cmd.offset ∧ o = command v s) ∨
    (∃ r, r ≠ .cmd ∧ off = r.offset ∧ o = .next (writeReg r v s)) ∨
    (Reg.atOffset off = none ∧ o = .next s) := by
  subst h
  unfold hostWrite
  split
  · next h => exact .inl ⟨Reg.atOffset_eq_some.1 h, rfl⟩
  · next r hne h => exact .inr (.inl ⟨r, fun e => hne e, Reg.atOffset_eq_some.1 h, rfl⟩)
  · next h => exact .inr (.inr ⟨h, rfl⟩)

/-- A host write never faults and is never refused. -/
theorem hostWrite_next (off : Nat) (v : Word) (s : State) : ∃ t, hostWrite off v s = .next t := by
  obtain ⟨-, h⟩ | ⟨r, -, -, h⟩ | ⟨-, h⟩ := hostWrite_cases (o := hostWrite off v s) rfl
  · rw [h]
    obtain ⟨-, h⟩ | ⟨-, i, -, h⟩ | ⟨-, -, h⟩ := command_cases (o := command v s) rfl <;>
      exact ⟨_, h⟩
  · exact ⟨_, h⟩
  · exact ⟨_, h⟩

/-- What the bus asks of an access. -/
theorem legalAt_iff {off width : Nat} :
    legalAt off width = true ↔ width = 8 ∧ off % 8 = 0 ∧ off < 0x80 := by
  simp [legalAt, and_assoc]

/-- Everything a host access can do. -/
theorem hostAccess_cases {a : Access} {s : State} {o : Outcome State Fault Refusal}
    (h : hostAccess a s = o) :
    (a.legal = false ∧ o = .fault (.busError a)) ∨
    (∃ off, a = .read off 8 ∧ a.legal = true ∧ o = .next (s.reply (readWindow s.regs off))) ∨
    (∃ off v, a = .write off 8 v ∧ a.legal = true ∧ o = hostWrite off v s) := by
  subst h
  unfold hostAccess
  cases hl : a.legal
  · exact .inl ⟨rfl, rfl⟩
  · cases a with
    | read off width =>
      obtain rfl := (legalAt_iff.1 hl).1
      exact .inr (.inl ⟨off, rfl, rfl, rfl⟩)
    | write off width v =>
      obtain rfl := (legalAt_iff.1 hl).1
      exact .inr (.inr ⟨off, v, rfl, rfl, rfl⟩)

/-- A host access stops only on the bus. -/
theorem hostAccess_fault {a : Access} {s : State} {f : Fault} (h : hostAccess a s = .fault f) :
    a.legal = false ∧ f = .busError a := by
  obtain ⟨hl, h⟩ | ⟨off, -, -, h⟩ | ⟨off, v, -, -, h⟩ := hostAccess_cases h
  · exact ⟨hl, by simpa using h⟩
  · simp at h
  · obtain ⟨t, ht⟩ := hostWrite_next off v s
    simp [ht] at h

/-- Everything an engine step can do. -/
theorem engineStep_cases (P : Params) (s : State) :
    (s.eng.fsm = .idle ∧ engineStep P s = s) ∨
    (s.eng.fsm = .mixing ∧
      engineStep P s = completeOk (P.mix s.eng.klo s.eng.khi s.eng.x) 0 s) ∨
    (s.eng.fsm = .ident ∧ engineStep P s = completeOk s.eng.x 0 s) ∨
    (s.eng.fsm = .rounds ∧ engineStep P s = stepRound P s) := by
  unfold engineStep
  cases s.eng.fsm <;> simp [stepMix, stepIdent]

/-- Everything the check after an application can do. -/
theorem walkCheck_cases (s : State) :
    (s.eng.w < s.eng.n ∧ walkCheck s = completeOk s.eng.w s.eng.iter s) ∨
    (s.eng.n ≤ s.eng.w ∧ s.eng.limit ≠ 0 ∧ s.eng.iter = s.eng.limit ∧
      walkCheck s = completeError .walkExhausted s.eng.iter s) ∨
    (s.eng.n ≤ s.eng.w ∧ (s.eng.limit = 0 ∨ s.eng.iter ≠ s.eng.limit) ∧ walkCheck s = s) := by
  unfold walkCheck
  split
  · next h => exact .inl ⟨h, rfl⟩
  · next h =>
    have hle : s.eng.n ≤ s.eng.w := BitVec.not_lt.1 h
    split
    · next h' => exact .inr (.inl ⟨hle, h'.1, h'.2, rfl⟩)
    · next h' => exact .inr (.inr ⟨hle, by tauto, rfl⟩)

/-- A round that is not the fourth. -/
theorem stepRound_early {P : Params} {s : State} (h : s.eng.round < 3) :
    stepRound P s = s.withEng { s.eng with
      w := feistelRound P.roundF s.eng.w s.eng.lb s.eng.rb s.eng.k, round := s.eng.round + 1 } := by
  simp only [stepRound, h, if_true]

/-- The state after the fourth round of an application, before the command looks at it. -/
def afterApplication (P : Params) (s : State) : State :=
  s.withEng { s.eng with
    w := feistelRound P.roundF s.eng.w s.eng.lb s.eng.rb s.eng.k, round := 0, iter := s.eng.iter + 1 }

/-- The fourth round of a FEISTEL command. -/
theorem stepRound_feistel {P : Params} {s : State} (h : ¬ s.eng.round < 3)
    (ho : s.eng.op = .feistel) :
    stepRound P s = completeOk (afterApplication P s).eng.w 0 (afterApplication P s) := by
  simp only [stepRound, h, if_false]
  rw [if_pos ho]
  rfl

/-- The fourth round of an application of the walk. -/
theorem stepRound_walk {P : Params} {s : State} (h : ¬ s.eng.round < 3)
    (ho : ¬ s.eng.op = .feistel) : stepRound P s = walkCheck (afterApplication P s) := by
  simp only [stepRound, h, if_false]
  rw [if_neg ho]
  rfl

/-- Everything a machine step that answers a next state can have done. -/
theorem stepWith_cases {P : Params} {s t : State} (h : stepWith P s = .next t) :
    ((s.bus.agenda = [] ∧ t = engineStep P s) ∨
    (∃ evs, s.bus.agenda = .engine :: evs ∧ t = engineStep P (s.withAgenda evs)) ∨
    (∃ evs, s.bus.agenda = .resetAssert :: evs ∧
      t = (applyReset (s.withAgenda evs)).withResetIn true) ∨
    (∃ evs, s.bus.agenda = .resetRelease :: evs ∧ t = (s.withAgenda evs).withResetIn false) ∨
    (∃ a evs, s.bus.agenda = .access a :: evs ∧ s.bus.resetIn = false ∧
      hostAccess a (s.withAgenda evs) = .next t)) := by
  unfold stepWith runNext at h
  split at h
  · next ha => exact .inl ⟨ha, by simpa using h.symm⟩
  · next ev evs ha =>
    cases ev with
    | engine => exact .inr (.inl ⟨evs, ha, by simpa [runEvent] using h.symm⟩)
    | resetAssert => exact .inr (.inr (.inl ⟨evs, ha, by simpa [runEvent] using h.symm⟩))
    | resetRelease => exact .inr (.inr (.inr (.inl ⟨evs, ha, by simpa [runEvent] using h.symm⟩)))
    | access a =>
      cases hr : s.bus.resetIn
      · refine .inr (.inr (.inr (.inr ⟨a, evs, ha, rfl, ?_⟩)))
        simpa [runEvent, hr] using h
      · simp [runEvent, hr] at h

/-- With the reset input released, a step whose next event is an access is that access. -/
theorem stepWith_access {P : Params} {s : State} {a : Access} {evs : List Event}
    (hr : s.bus.resetIn = false) (ha : s.bus.agenda = .access a :: evs) :
    stepWith P s = hostAccess a (s.withAgenda evs) := by
  have h : ¬ (s.withAgenda evs).bus.resetIn = true := by
    rw [withAgenda_bus, hr]
    decide
  simp only [stepWith, runNext, ha, runEvent]
  rw [if_neg h]

/-- No command touches the bus. -/
theorem actOf_bus (i : Instr) (s : State) : (actOf i s).bus = s.bus := by
  cases i with
  | nop => rfl
  | mix => rfl
  | feistel lb rb => simp only [actOf, acceptFeistel]; split <;> rfl
  | fpe =>
    simp only [actOf, acceptFpe]
    split
    · rfl
    · split
      · rfl
      · split <;> rfl

/-- The check after an application does not look at the bus. -/
theorem walkCheck_withAgenda (s : State) (evs : List Event) :
    walkCheck (s.withAgenda evs) = (walkCheck s).withAgenda evs := by
  unfold walkCheck
  by_cases h : s.eng.w < s.eng.n
  · rw [if_pos h, if_pos (by exact h)]
    rfl
  · rw [if_neg h, if_neg (by exact h)]
    by_cases h' : s.eng.limit ≠ 0 ∧ s.eng.iter = s.eng.limit
    · rw [if_pos h', if_pos (by exact h')]
      rfl
    · rw [if_neg h', if_neg (by exact h')]

/-- The engine does not look at the bus. -/
theorem engineStep_withAgenda (P : Params) (s : State) (evs : List Event) :
    engineStep P (s.withAgenda evs) = (engineStep P s).withAgenda evs := by
  cases h : s.eng.fsm <;> simp only [engineStep, withAgenda_eng, h]
  · rfl
  · by_cases hr : s.eng.round < 3
    · rw [stepRound_early (s := s.withAgenda evs) hr, stepRound_early hr]
      rfl
    · by_cases ho : s.eng.op = .feistel
      · rw [stepRound_feistel (s := s.withAgenda evs) hr ho, stepRound_feistel hr ho]
        rfl
      · rw [stepRound_walk (s := s.withAgenda evs) hr ho, stepRound_walk hr ho,
          ← walkCheck_withAgenda]
        rfl
  · rfl

/-- The engine does not touch the bus. -/
@[simp] theorem engineStep_bus (P : Params) (s : State) : (engineStep P s).bus = s.bus := by
  obtain ⟨-, h⟩ | ⟨-, h⟩ | ⟨-, h⟩ | ⟨-, h⟩ := engineStep_cases P s <;> rw [h] <;> try rfl
  by_cases hr : s.eng.round < 3
  · rw [stepRound_early hr]
    rfl
  · by_cases ho : s.eng.op = .feistel
    · rw [stepRound_feistel hr ho]
      rfl
    · rw [stepRound_walk hr ho]
      obtain ⟨-, h⟩ | ⟨-, -, -, h⟩ | ⟨-, -, h⟩ := walkCheck_cases (afterApplication P s) <;>
        rw [h] <;> rfl

/-- A host write leaves the bus as it is. -/
theorem hostWrite_bus {off : Nat} {v : Word} {s t : State} (h : hostWrite off v s = .next t) :
    t.bus = s.bus := by
  obtain ⟨-, h⟩ | ⟨r, -, -, h⟩ | ⟨-, h⟩ := hostWrite_cases h
  · obtain ⟨-, h⟩ | ⟨-, i, -, h⟩ | ⟨-, -, h⟩ := command_cases h.symm <;> cases h
    · rfl
    · exact actOf_bus i s
    · rfl
  · cases h
    cases r <;> rfl
  · cases h
    rfl

section agendas
variable (b : Bool) (a : Access) (evs : List Event)

@[simp] theorem agendaLegal_nil : agendaLegal b [] = true := rfl
@[simp] theorem agendaLegal_access :
    agendaLegal b (.access a :: evs) = (!b && a.legal && agendaLegal b evs) := rfl
@[simp] theorem agendaLegal_engine : agendaLegal b (.engine :: evs) = agendaLegal b evs := rfl
@[simp] theorem agendaLegal_resetAssert :
    agendaLegal b (.resetAssert :: evs) = agendaLegal true evs := rfl
@[simp] theorem agendaLegal_resetRelease :
    agendaLegal b (.resetRelease :: evs) = agendaLegal false evs := rfl

end agendas

/-- Engine steps compose. -/
theorem engineSteps_add (P : Params) (a b : Nat) (s : State) :
    engineSteps P (a + b) s = engineSteps P b (engineSteps P a s) := by
  induction a generalizing s with
  | zero => rw [Nat.zero_add]; rfl
  | succ a ih => rw [Nat.add_right_comm, engineSteps, ih, engineSteps]

/-- Runs compose. -/
theorem runWith_add {P : Params} {m : Nat} : ∀ {l : Nat} {s t : State},
    runWith P l s = .next t → runWith P (l + m) s = runWith P m t
  | 0, s, t, h => by
    obtain rfl : s = t := by simpa [runWith] using h
    rw [Nat.zero_add]
  | l + 1, s, t, h => by
    rw [Nat.add_right_comm, runWith]
    rw [runWith] at h
    cases hs : stepWith P s <;> simp only [hs] at h ⊢
    · exact runWith_add h
    · cases h
    · cases h

end Sys2Proof.Machine
end

