-- ==== Sys2Proof/Tests/Slice0.lean ====
section
/-! SUPPORT. The model's own tests. Expected results are those of spec/95_test_vectors.md, computed there
from the rules with test functions in place of the open ones. The second half shows, for each
statement with hypotheses, a state and operands that meet them all. -/

namespace Sys2Proof.Tests

open Sys2Proof Sys2Proof.Machine Host

/-- `ZERO_F` and `TOY_MIX` of 95_test_vectors.md section 2. -/
def zeroP : Params := { mix := fun klo khi x => (x ^^^ klo) + khi, roundF := fun _ _ => 0 }

/-- `TOY_F` and `TOY_MIX` of 95_test_vectors.md section 2. -/
def toyP : Params := { mix := fun klo khi x => (x ^^^ klo) + khi, roundF := fun k r => k + 5 * r + 3 }

/-- The next state, if there is one. -/
def nextOf : Outcome State Fault Refusal → Option State
  | .next s => some s
  | .fault _ => none
  | .refused _ => none

/-- The reset state with operands loaded. -/
def loaded (x n key : Word) : State :=
  State.reset.withRegs { State.reset.regs with x := x, n := n, key := key }

/-- STATUS as a word after an outcome; 0xFFFF where the machine stopped. -/
def statusAfter (o : Outcome State Fault Refusal) : Word :=
  match nextOf o with
  | some s => statusWord s.regs.status
  | none => 0xFFFF

/-- Idle with STATUS = 0x50E, the start of rows 4.6 to 4.13. -/
def status50E : State :=
  State.reset.withStatus { busy := false, done := true, err := true, ovr := true, errcode := 5 }

/-- An FPE of X = 1 over N = 5 with KEY = 0x2A, accepted and not yet complete. -/
def runningFpe : State := acceptFpe (accept (loaded 1 5 0x2A))

/-- FEISTEL 4, 4 of X = 0xA5 with KEY = 0x2A, accepted and not yet complete. -/
def runningFeistel : State := acceptFeistel 4 4 (accept (loaded 0xA5 0 0x2A))

/-- A MIX accepted and not yet complete. -/
def runningMix : State := acceptMix (accept (loaded 0xFF 0 0))

/-! ## Well-formedness -/

theorem test_wf_refuses_wide_lb : (Instr.feistel 128 0).wf = false := by decide
theorem test_wf_refuses_wide_rb : (Instr.feistel 0 128).wf = false := by decide
theorem test_wf_takes_field_maximum : (Instr.feistel 127 127).wf = true := by decide

/-! ## Decoding: words written out from R80, section 3 of the vectors -/

theorem test_decode_nop : decode 0b0 = .ok .nop := by decide
theorem test_decode_mix : decode 0b1 = .ok .mix := by decide
theorem test_decode_fpe : decode 0b11 = .ok .fpe := by decide
theorem test_decode_feistel :
    decode 0b0111111_0_0000001_0000_0010 = .ok (.feistel 1 63) := by decide
theorem test_decode_reserved_bits :
    decode 0x80 = .error .reservedBit ∧ decode 0x8002 = .error .reservedBit ∧
    decode 0x800002 = .error .reservedBit ∧ decode 0x8000000000000002 = .error .reservedBit := by
  decide
theorem test_decode_width_on_other_commands :
    decode 0x101 = .error .widthNotZero ∧ decode 0x103 = .error .widthNotZero ∧
    decode 0x10000 = .error .widthNotZero := by decide
theorem test_decode_reserved_opcodes :
    decode 0x4 = .error .reservedOpcode ∧ decode 0xF = .error .reservedOpcode := by decide
theorem test_decode_table_word : decodeTableWord 64 0x40402 = some (.feistel 4 4) := by decide

/-! ## Commands -/

/-- R107's worked example. -/
theorem test_nop_keeps_done :
    statusAfter (exec .nop (State.reset.withStatus
      { busy := false, done := true, err := false, ovr := false, errcode := 0 })) = 0x2 := by decide

/-- Row 4.6. -/
theorem test_mix_acceptance_clears_all_but_ovr : statusAfter (exec .mix status50E) = 0x9 := by decide

/-- R124's worked example. -/
theorem test_mix_worked_example :
    (engineStep zeroP (acceptMix (accept (State.reset.withRegs
      { State.reset.regs with x := 0xFF, keyLo := 0x0F, keyHi := 0x100 })))).regs.result
      = 0x1F0 := by decide

/-- Row `feistel 33, 32` of section 3: the sum is 65. -/
theorem test_feistel_bad_width : statusAfter (exec (.feistel 33 32) State.reset) = 0x206 := by decide

/-- Section 6.1, the first and the last round. -/
theorem test_feistel_rounds :
    feistelRound toyP.roundF 0xA5 4 4 0x2A = 0x5C ∧ feistel4 toyP.roundF 0xA5 4 4 0x2A = 0x5A := by
  decide

/-- Rows of section 7.1: N_ZERO comes before INPUT_RANGE. -/
theorem test_fpe_errors :
    statusAfter (exec .fpe (loaded 5 0 0)) = 0x306 ∧ statusAfter (exec .fpe (loaded 5 5 0)) = 0x406 := by
  decide

/-- R173's worked example and a row of section 7.6. -/
theorem test_fpe_walk :
    fpeWalk toyP.roundF 1 5 0x2A 0 = some (.ok 2 2) ∧
    fpeWalk zeroP.roundF 3 5 0 2 = some (.error .walkExhausted 2) := by decide

/-- Row 4.4: an illegal word while busy only sets OVR. -/
theorem test_busy_word_is_lost : statusAfter (command 0x4 runningFpe) = 0x9 := by decide

/-- An illegal word on an idle engine. -/
theorem test_illegal_word : statusAfter (command 0x4 State.reset) = 0x106 := by decide

/-! ## Registers, datapath, bus -/

/-- Rows 4.7, 4.8, 4.9, 4.10, 4.11 and 4.12. -/
theorem test_status_writes :
    [0x2, 0x4, 0x8, 0xE, 0x1, 0xF00].map (fun v => statusAfter (hostAccess (.write 0x08 8 v) status50E))
      = [0x50C, 0x50A, 0x506, 0x500, 0x50E, 0x50E] := by decide

/-- Row 4.18. -/
theorem test_ctrl_keeps_bit_0 :
    (nextOf (hostAccess (.write 0x10 8 0xFFFFFFFFFFFFFFFF) State.reset)).map
      (fun s => readWindow s.regs 0x10) = some 1 := by decide

/-- Section 8. -/
theorem test_bus_errors :
    [Access.read 0x08 4, .write 0x00 1 0x01, .read 0x04 8, .write 0x1C 8 0, .read 0x80 8,
      .read 0x40 16].map Access.legal = [false, false, false, false, false, false] := by decide

/-- Section 8: X on the byte lanes. -/
theorem test_byte_lanes :
    [0x18, 0x19, 0x1F].map (windowByte (loaded 0x0123456789ABCDEF 0 0).regs) = [0xEF, 0xCD, 0x01] := by
  decide

/-- Rows of R171's table. -/
theorem test_widths :
    [1, 2, 3, 5, 65537, 2 ^ 63, 2 ^ 63 + 1].map widths =
      [(0, 0), (0, 1), (1, 1), (1, 2), (8, 9), (31, 32), (32, 32)] := by decide

/-- Rows 9.3 and 9.4. -/
theorem test_irq_follows_done_and_ie :
    irq (ctrlWrite 1 status50E) = true ∧ irq (statusWrite 0x2 (ctrlWrite 1 status50E)) = false := by
  decide

/-- Row 10.5: reset abandons a running command. -/
theorem test_reset_abandons :
    (nextOf (stepWith toyP (runningFpe.withAgenda [.resetAssert]))).map (fun s => (s.regs, s.eng))
      = some (Regs.reset, Engine.reset) := by decide

/-- The placed word is the first command after reset. -/
theorem test_fetch_word_runs :
    nextOf (step (State.reset.withFetchWord 64 0x1)) = nextOf (exec .mix State.reset) := by decide

/-! ## Witnesses: each statement's hypotheses can be met, clause by clause -/

theorem witness_DecodeEncodeRoundTrip :
    (Instr.feistel 0 0).wf = true ∧ (Instr.feistel 127 127).wf = true ∧ Instr.fpe.wf = true := by decide

/-- Idle, running, or with the reset input asserted. -/
theorem witness_idle_and_busy :
    State.reset.regs.status.busy = false ∧ runningFpe.regs.status.busy = true := by decide

theorem witness_IllegalWordCompletesWithError :
    State.reset.regs.status.busy = false ∧
    4 ≤ ((0x4 : Word).extractLsb' 0 4).toNat ∧ 4 ≤ ((0xF : Word).extractLsb' 0 4).toNat ∧
    (0x10 : Word).extractLsb' 4 4 ≠ 0 ∧ (0x80 : Word).extractLsb' 4 4 ≠ 0 ∧
    (0x8002 : Word).getLsbD 15 = true ∧ (0x800002 : Word).extractLsb' 23 41 ≠ 0 ∧
    (0x8000000000000002 : Word).extractLsb' 23 41 ≠ 0 ∧
    (((0x101 : Word).extractLsb' 0 4).toNat ≠ 2 ∧ (0x101 : Word).extractLsb' 8 7 ≠ 0) ∧
    (((0x10000 : Word).extractLsb' 0 4).toNat ≠ 2 ∧ (0x10000 : Word).extractLsb' 16 7 ≠ 0) := by
  decide

theorem witness_NopChangesNothing :
    State.reset.regs.status.busy = false ∧ runningFpe.regs.status.busy = true := witness_idle_and_busy

theorem witness_BusyCommandIsLost : runningFpe.regs.status.busy = true := by decide

theorem witness_MixIsAccepted : State.reset.regs.status.busy = false := by decide

theorem witness_MixCommandComputesMix :
    ∃ s : State, s.regs.status.busy = false ∧ s.bus.resetIn = false ∧
      s.bus.agenda = .access (.write 0x00 8 0x1) :: .engine :: [] :=
  ⟨State.reset.withAgenda [.access (.write 0x00 8 0x1), .engine], by decide⟩

theorem witness_FeistelAcceptance :
    State.reset.regs.status.busy = false ∧ (1 ≤ 63 ∧ 1 ≤ 1 ∧ 63 + 1 ≤ 64) ∧
    (1 ≤ 1 ∧ 1 ≤ 63 ∧ 1 + 63 ≤ 64) ∧ (0 = 0 ∨ 1 = 0 ∨ 64 < 0 + 1) ∧
    (1 = 0 ∨ 0 = 0 ∨ 64 < 1 + 0) ∧ (33 = 0 ∨ 32 = 0 ∨ 64 < 33 + 32) := by decide

theorem witness_RoundEngineStep :
    (runningFeistel.eng.fsm = .rounds ∧ runningFeistel.eng.round < 3) ∧
    ((engineSteps toyP 3 runningFeistel).eng.fsm = .rounds ∧
      3 ≤ (engineSteps toyP 3 runningFeistel).eng.round ∧
      (engineSteps toyP 3 runningFeistel).eng.op = .feistel) ∧
    ((engineSteps toyP 3 runningFpe).eng.fsm = .rounds ∧
      3 ≤ (engineSteps toyP 3 runningFpe).eng.round ∧
      (engineSteps toyP 3 runningFpe).eng.op ≠ .feistel) := by decide

theorem witness_FeistelCommandComputesFeistel4 :
    ∃ (s : State) (lb rb : Nat), s.regs.status.busy = false ∧ s.bus.resetIn = false ∧
      (1 ≤ lb ∧ 1 ≤ rb ∧ lb + rb ≤ 64) ∧
      s.bus.agenda =
        .access (.write 0x00 8 (0x2 ||| (BitVec.ofNat 64 lb <<< 8) ||| (BitVec.ofNat 64 rb <<< 16)))
          :: (List.replicate 4 .engine ++ []) :=
  ⟨State.reset.withAgenda
    (.access (.write 0x00 8 0x013F02) :: List.replicate 4 .engine), 63, 1, by decide⟩

theorem witness_FpeAcceptance :
    (loaded 5 0 0).regs.n.toNat = 0 ∧
    ((loaded 5 5 0).regs.n.toNat ≠ 0 ∧ (loaded 5 5 0).regs.n.toNat ≤ (loaded 5 5 0).regs.x.toNat) ∧
    ((loaded 0 1 0).regs.n.toNat = 1 ∧ (loaded 0 1 0).regs.x.toNat = 0) ∧
    (2 ≤ (loaded 1 2 0).regs.n.toNat ∧ (loaded 1 2 0).regs.x.toNat < (loaded 1 2 0).regs.n.toNat) ∧
    (loaded 1 2 0).regs.status.busy = false := by decide

theorem witness_DegenerateDomainIsIdentity :
    (acceptFpe (accept (loaded 0 1 0))).eng.fsm = .ident ∧
    (loaded 0 1 7).regs.status.busy = false ∧ (loaded 0 1 7).regs.n = 1 ∧ (loaded 0 1 7).regs.x = 0 := by
  decide

/-- The last round of an application of the walk of 3 over 5 with `ZERO_F`: it gives 6, 5, then 3. -/
def walkState (m : Nat) (limit : Word) : State :=
  engineSteps zeroP m (acceptFpe (accept ((loaded 3 5 0).withRegs
    { (loaded 3 5 0).regs with walkLimit := limit })))

theorem witness_WalkCheckStep :
    ((walkState 11 0).eng.fsm = .rounds ∧ (walkState 11 0).eng.op = .fpe ∧ (walkState 11 0).eng.round = 3 ∧
      (feistelRound zeroP.roundF (walkState 11 0).eng.w (walkState 11 0).eng.lb (walkState 11 0).eng.rb
        (walkState 11 0).eng.k).toNat < (walkState 11 0).eng.n.toNat) ∧
    ((walkState 7 2).eng.fsm = .rounds ∧ (walkState 7 2).eng.op = .fpe ∧ (walkState 7 2).eng.round = 3 ∧
      (walkState 7 2).eng.n.toNat ≤ (feistelRound zeroP.roundF (walkState 7 2).eng.w
        (walkState 7 2).eng.lb (walkState 7 2).eng.rb (walkState 7 2).eng.k).toNat ∧
      (walkState 7 2).eng.limit ≠ 0 ∧ (walkState 7 2).eng.iter + 1 = (walkState 7 2).eng.limit) ∧
    ((walkState 3 0).eng.n.toNat ≤ (feistelRound zeroP.roundF (walkState 3 0).eng.w
        (walkState 3 0).eng.lb (walkState 3 0).eng.rb (walkState 3 0).eng.k).toNat ∧
      (walkState 3 0).eng.limit = 0) ∧
    ((walkState 3 2).eng.n.toNat ≤ (feistelRound zeroP.roundF (walkState 3 2).eng.w
        (walkState 3 2).eng.lb (walkState 3 2).eng.rb (walkState 3 2).eng.k).toNat ∧
      (walkState 3 2).eng.iter + 1 ≠ (walkState 3 2).eng.limit) := by decide

/-- An FPE of 3 over 5 with cap 2, its word and its turns pending. -/
def cappedWalk : State :=
  ((loaded 3 5 0).withRegs { (loaded 3 5 0).regs with walkLimit := 2 }).withAgenda
    (.access (.write 0x00 8 0x3) :: List.replicate 8 .engine)

theorem witness_WalkCapExhausts :
    cappedWalk.regs.status.busy = false ∧ cappedWalk.bus.resetIn = false ∧
    2 ≤ cappedWalk.regs.n.toNat ∧ cappedWalk.regs.x.toNat < cappedWalk.regs.n.toNat ∧
    cappedWalk.regs.walkLimit ≠ 0 ∧
    (∀ i, 1 ≤ i → i ≤ cappedWalk.regs.walkLimit.toNat →
      cappedWalk.regs.n.toNat ≤ (feistel4Iter zeroP.roundF (widths cappedWalk.regs.n.toNat).1
        (widths cappedWalk.regs.n.toNat).2 cappedWalk.regs.key i cappedWalk.regs.x).toNat) ∧
    cappedWalk.bus.agenda = .access (.write 0x00 8 0x3)
      :: (List.replicate (4 * cappedWalk.regs.walkLimit.toNat) .engine ++ []) := by
  refine ⟨by decide, by decide, by decide, by decide, by decide, ?_, by decide⟩
  intro i h1 h2
  obtain rfl | rfl : i = 1 ∨ i = 2 := by
    have h2 : i ≤ 2 := h2
    omega
  · decide
  · decide

theorem witness_FpeCommandComputesWalk :
    (loaded 1 5 0x2A).regs.status.busy = false ∧ (loaded 1 5 0x2A).bus.resetIn = false ∧
    fpeWalk toyP.roundF 1 5 0x2A 0 = some (.ok 2 2) ∧ fpeTurns 5 (.ok 2 2) = 8 := by decide

theorem witness_FeistelIgnoresHighBits :
    (1 ≤ 63 ∧ 1 ≤ 1 ∧ 63 + 1 ≤ 64) ∧
    (0x1A5 : Word).toNat % 2 ^ (4 + 4) = (0xA5 : Word).toNat % 2 ^ (4 + 4) ∧
    State.reset.regs.status.busy = false := by decide

theorem witness_FeistelIsBijection :
    (0 ≤ 63 ∧ 63 ≤ 63 ∧ 0 + 63 ≤ 64) ∧ (32 ≤ 32 ∧ 32 ≤ 63 ∧ 32 + 32 ≤ 64) ∧
    (1 ≤ 63 ∧ 63 ≤ 63 ∧ 1 + 63 ≤ 64) := by decide

theorem witness_WideLeftRoundLosesBits :
    (1 ≤ 1 ∧ 1 < 63 ∧ 63 + 1 ≤ 64) ∧
    ((0 : Word).toNat % 2 ^ 1 = (4 : Word).toNat % 2 ^ 1 ∧
      (0 : Word).toNat / 2 ^ 1 % 2 ^ 1 = (4 : Word).toNat / 2 ^ 1 % 2 ^ 1) ∧
    (15 : Word).toNat < 16 := by decide

theorem witness_InverseRoundUndoesRound :
    (4 ≤ 4 ∧ 4 ≤ 63 ∧ 4 + 4 ≤ 64 ∧ (0xA5 : Word).toNat < 2 ^ (4 + 4)) ∧
    (1 ≤ 63 ∧ 63 ≤ 63 ∧ 1 + 63 ≤ 64 ∧ (0xFFFFFFFFFFFFFFFF : Word).toNat < 2 ^ (1 + 63)) := by decide

theorem witness_RoundReassemblesHalves :
    (1 ≤ 32 ∧ 32 ≤ 63 ∧ 32 + 32 ≤ 64 ∧ 32 = 32) ∧ (1 ≤ 1 ∧ 63 ≤ 63 ∧ 1 + 63 ≤ 64 ∧ 1 < 63) := by decide

theorem witness_ZeroRoundFunctionRotates :
    (1 ≤ 32 ∧ 32 ≤ 32 ∧ 32 + 32 ≤ 64 ∧ (0xFFFFFFFFFFFFFFFF : Word).toNat < 2 ^ (32 + 32)) ∧
    (1 ≤ 2 ∧ 2 ≤ 3 ∧ 2 + 3 ≤ 64 ∧ (0x16 : Word).toNat < 2 ^ (2 + 3) ∧ 2 < 3) := by decide

theorem witness_ZeroLeftWidthRound : 63 ≤ 63 ∧ (0 : Nat) ≤ 63 ∧ (1 : Word).toNat < 2 ^ 1 := by decide

theorem witness_Clog2IsLeastExponent :
    (1 ≤ 1 ∧ 1 < 2 ^ 64) ∧ (1 ≤ 2 ^ 64 - 1 ∧ 2 ^ 64 - 1 < 2 ^ 64) ∧ 0 ≤ 63 ∧ 63 ≤ 63 := by decide

theorem witness_DescriptorRanges :
    (1 ≤ 1 ∧ 1 < 2 ^ 64) ∧ (1 ≤ 2 ^ 64 - 1 ∧ 2 ^ 64 - 1 < 2 ^ 64) ∧
    (3 ≤ 3 ∧ 3 ≤ 4) ∧ (3 ≤ 4 ∧ 4 ≤ 4) ∧ (5 ≤ 5 ∧ 5 ≤ 8) ∧ (5 ≤ 8 ∧ 8 ≤ 8) ∧
    (9 ≤ 9 ∧ 9 ≤ 16) ∧ (9 ≤ 16 ∧ 16 ≤ 16) ∧ (17 ≤ 17 ∧ 17 ≤ 32) ∧ (17 ≤ 32 ∧ 32 ≤ 32) ∧
    (2 ^ 63 + 1 ≤ 2 ^ 63 + 1 ∧ 2 ^ 63 + 1 ≤ 2 ^ 64 - 1) ∧ 2 ^ 63 + 1 ≤ 2 ^ 64 - 1 := by decide

theorem witness_WalkEndsWithinBound :
    (2 ≤ 2 ∧ 2 < 2 ^ 64 ∧ (1 : Word).toNat < 2) ∧
    (2 ≤ 2 ^ 63 + 1 ∧ 2 ^ 63 + 1 < 2 ^ 64 ∧ (0x8000000000000000 : Word).toNat < 2 ^ 63 + 1) := by decide

theorem witness_FpeIsBijection :
    (1 : Word) ≠ 0 ∧ (0 : Word).toNat < (1 : Word).toNat ∧ (3 : Word) ≠ 0 ∧
    fpeWalk zeroP.roundF 3 5 0 3 = some (.ok 3 3) := by decide

theorem witness_DomainTwoIsIdentity : (0 : Word).toNat < 2 ∧ (1 : Word).toNat < 2 := by decide

theorem witness_PowerOfTwoTakesOneApplication :
    (1 ≤ 1 ∧ 1 ≤ 63 ∧ (1 : Word).toNat < 2 ^ 1) ∧
    (1 ≤ 63 ∧ 63 ≤ 63 ∧ (0x7FFFFFFFFFFFFFFF : Word).toNat < 2 ^ 63) := by decide

/-- An FPE of 1 over 5 about to be written, after a run that left other values behind. -/
def usedFpe : State :=
  { (loaded 1 5 0x2A).withAgenda [.access (.write 0x00 8 0x3)] with
    regs := { (loaded 1 5 0x2A).regs with keyLo := 9, result := 7, iter := 3 }
    eng := { Engine.reset with w := 5, iter := 2 } }

theorem witness_FpeIsDeterministic :
    ∃ s s' : State, s ≠ s' ∧ s.regs.status.busy = false ∧ s.bus.resetIn = false ∧
      s'.regs.status.busy = false ∧ s'.bus.resetIn = false ∧
      s.bus.agenda = [.access (.write 0x00 8 0x3)] ∧ s'.bus.agenda = [.access (.write 0x00 8 0x3)] ∧
      s'.regs.x = s.regs.x ∧ s'.regs.n = s.regs.n ∧ s'.regs.key = s.regs.key ∧
      s'.regs.walkLimit = s.regs.walkLimit :=
  ⟨(loaded 1 5 0x2A).withAgenda [.access (.write 0x00 8 0x3)], usedFpe, by decide⟩

theorem witness_window_refusals :
    (4 ≠ 8 ∨ 0x08 % 8 ≠ 0 ∨ 0x80 ≤ 0x08) ∧ (8 ≠ 8 ∨ 0x04 % 8 ≠ 0 ∨ 0x80 ≤ 0x04) ∧
    (8 ≠ 8 ∨ 0x80 % 8 ≠ 0 ∨ 0x80 ≤ 0x80) := by decide

theorem witness_WritesAreIdempotent :
    hostAccess (.read 0x78 8) status50E = .next (status50E.reply 0) ∧
    (0x08 ≠ 0x00 ∧ hostAccess (.write 0x08 8 0xE) status50E = .next (statusWrite 0xE status50E)) ∧
    hostAccess (.write 0x00 8 0x1) State.reset = .next (acceptMix (accept State.reset)) := ⟨rfl, ⟨by decide, rfl⟩, rfl⟩

theorem witness_ByteLanesAreLittleEndian :
    (0x00 % 8 = 0 ∧ 0x00 < 0x80 ∧ 0 ≤ 7) ∧ (0x78 % 8 = 0 ∧ 0x78 < 0x80 ∧ 7 ≤ 7) := by decide

theorem witness_WriteChangesOneSlot :
    (0x10 ≤ 0x10 ∧ hostAccess (.write 0x10 8 3) State.reset = .next (ctrlWrite 3 State.reset)) ∧
    (0x10 ≤ 0x50 ∧ hostAccess (.write 0x50 8 3) State.reset = .next (writeReg .walkLimit 3 State.reset)) ∧
    (0x10 ≤ 0x48 ∧ hostAccess (.write 0x48 8 3) State.reset = .next State.reset) ∧
    (0x10 ≤ 0x78 ∧ hostAccess (.write 0x78 8 3) State.reset = .next State.reset) :=
  ⟨⟨by decide, rfl⟩, ⟨by decide, rfl⟩, ⟨by decide, rfl⟩, ⟨by decide, rfl⟩⟩

theorem witness_OvrIsSticky :
    runningFpe.regs.status.busy = true ∧
    (∃ t, stepWith toyP (runningFpe.withAgenda [.access (.write 0x00 8 0x4)]) = .next t ∧
      runningFpe.regs.status.ovr = false ∧ t.regs.status.ovr = true) ∧
    (∃ t, stepWith toyP (status50E.withAgenda [.access (.write 0x08 8 0x8)]) = .next t ∧
      status50E.regs.status.ovr = true ∧ t.regs.status.ovr = false) ∧
    (∃ t, stepWith toyP (status50E.withAgenda [.resetAssert]) = .next t ∧
      t.regs.status.ovr = false) :=
  ⟨by decide, ⟨_, rfl, by decide⟩, ⟨_, rfl, by decide⟩, ⟨_, rfl, by decide⟩⟩

theorem witness_ResultAndIterChangeOnlyAtCompletion :
    (∃ t, stepWith toyP runningMix = .next t ∧ t.regs.result ≠ runningMix.regs.result) ∧
    (∃ t, stepWith toyP (usedFpe.withAgenda [.access (.write 0x00 8 0x4)]) = .next t ∧
      t.regs.iter ≠ usedFpe.regs.iter) ∧
    (∃ t, stepWith toyP (engineSteps toyP 7 runningFpe) = .next t ∧
      t.regs.iter ≠ (engineSteps toyP 7 runningFpe).regs.iter) :=
  ⟨⟨_, rfl, by decide⟩, ⟨_, rfl, by decide⟩, ⟨_, rfl, by decide⟩⟩

theorem witness_OperandRegistersChangeOnlyByHost :
    ∃ t, stepWith toyP (State.reset.withAgenda [.access (.write 0x18 8 7)]) = .next t ∧
      t.regs.x ≠ State.reset.regs.x := ⟨_, rfl, by decide⟩

theorem inv_runningFpe : Inv runningFpe := by constructor <;> decide

theorem inv_reset : Inv State.reset := by constructor <;> decide

theorem witness_BusyRisesAtAcceptanceOnly :
    (∃ s t : State, Inv s ∧ stepWith toyP s = .next t ∧ s.regs.status.busy = false ∧
      t.regs.status.busy = true) ∧
    (∃ s t : State, Inv s ∧ stepWith toyP s = .next t ∧ s.regs.status.busy = true ∧
      t.regs.status.busy = false) :=
  ⟨⟨State.reset.withAgenda [.access (.write 0x00 8 0x1)], _, by constructor <;> decide, rfl, by decide⟩,
   ⟨runningFpe.withAgenda [.resetAssert], _, by constructor <;> decide, rfl, by decide⟩⟩

theorem witness_OnlyBusErrorsFault :
    stepWith toyP (State.reset.withAgenda [.access (.read 0x04 8)]) =
      .fault (.busError (.read 0x04 8)) := rfl

theorem witness_ConditionPriority :
    decode 0x0 = .ok .nop ∧ (∃ e, decode 0x4 = .error e) ∧
    (decode 0x202102 = .ok (.feistel 33 32) ∧ 64 < 33 + 32) ∧
    (decode 0x10002 = .ok (.feistel 0 1)) ∧ (decode 0x102 = .ok (.feistel 1 0)) ∧ decode 0x3 = .ok .fpe ∧
    (loaded 5 0 0).regs.n = 0 ∧ (loaded 5 5 0).regs.n ≠ 0 ∧
    (loaded 5 5 0).regs.n.toNat ≤ (loaded 5 5 0).regs.x.toNat :=
  ⟨by decide, ⟨_, rfl⟩, by decide⟩

theorem witness_InterruptLevel :
    (runningMix.eng.fsm ≠ .idle ∧ (engineStep toyP runningMix).eng.fsm = .idle) ∧
    (0x2 : Word).getLsbD 1 = true ∧ (State.reset.regs.status.busy = false ∧ Instr.fpe ≠ .nop) ∧
    (0x2 : Word).getLsbD 0 = false := by decide

theorem witness_WriteBackKeepsLaterBits :
    status50E.regs.status.done = true ∧ runningFpe.regs.status.done = false ∧
    status50E.regs.status.err = true ∧ runningFpe.regs.status.err = false ∧
    status50E.regs.status.ovr = true ∧ runningFpe.regs.status.ovr = false := by decide

/-- A running FPE, disturbed by an operand write, a CMD write and a STATUS write. -/
def disturbed : List Event :=
  [wr .x 4, .engine, wr .cmd 0x1, .engine, wr .status 0xE, rd .iter]

theorem witness_RunningCommandIgnoresHost :
    ∃ s : State, Inv s ∧ s.regs.status.busy = true ∧ s.bus.resetIn = false ∧
      (∀ ev ∈ disturbed, ev.quiet = true) ∧ s.bus.agenda = disturbed ++ .engine :: [] ∧
      ∀ j, j ≤ engineTurns disturbed → (engineSteps toyP j s).eng.fsm ≠ .idle := by
  refine ⟨runningFpe.withAgenda (disturbed ++ [.engine]), by constructor <;> decide, by decide,
    by decide, by decide, by decide, ?_⟩
  intro j hj
  have hj : j ≤ 2 := hj
  interval_cases j <;> decide

theorem witness_RunMixReadsMix :
    ∃ s : State, Inv s ∧ s.regs.status.busy = false ∧ s.bus.resetIn = false ∧
      s.regs.status.ovr = false ∧ [0, 1] ≠ [] ∧ 1 ≤ [0, 1].sum ∧ s.bus.agenda = runMix 0x0F 0x1B 0 [0, 1] :=
  ⟨State.reset.withAgenda (runMix 0x0F 0x1B 0 [0, 1]), by constructor <;> decide, by decide⟩

theorem witness_RunFeistelReadsFeistel4 :
    ∃ s : State, Inv s ∧ s.regs.status.busy = false ∧ s.bus.resetIn = false ∧
      s.regs.status.ovr = false ∧ (1 ≤ 4 ∧ 1 ≤ 4 ∧ 4 + 4 ≤ 64) ∧ [1, 3] ≠ [] ∧ 4 ≤ [1, 3].sum ∧
      s.bus.agenda = runFeistel 0xA5 4 4 0x2A [1, 3] :=
  ⟨State.reset.withAgenda (runFeistel 0xA5 4 4 0x2A [1, 3]), by constructor <;> decide, by decide⟩

theorem witness_AcceptanceFrame :
    exec .nop State.reset = .next State.reset ∧
    exec .mix State.reset = .next (acceptMix (accept State.reset)) ∧
    exec (.feistel 4 4) State.reset = .next (acceptFeistel 4 4 (accept State.reset)) ∧
    exec .fpe runningFpe = .next (lostCommand runningFpe) := ⟨rfl, rfl, rfl, rfl⟩

theorem witness_EngineStepFrame : (engineStep toyP runningFpe).eng.fsm ≠ .idle := by decide

theorem witness_reset_events :
    (runningFpe.withAgenda [.resetAssert]).bus.agenda = .resetAssert :: [] ∧
    ((State.reset.withResetIn true).withAgenda [.access (.read 0 8)]).bus.resetIn = true ∧
    ((State.reset.withResetIn true).withAgenda [.access (.read 0 8)]).bus.agenda
      = .access (.read 0 8) :: [] ∧
    ((State.reset.withResetIn true).withAgenda [.resetRelease]).bus.agenda = .resetRelease :: [] := by
  decide

theorem witness_StepRunsDecodedCommand :
    ∃ s : State, s.bus.resetIn = false ∧ s.bus.agenda = .access (.write 0x00 8 0x40402) :: [] ∧
      decode 0x40402 = .ok (.feistel 4 4) :=
  ⟨State.reset.withAgenda [.access (.write 0x00 8 0x40402)], by decide⟩

theorem witness_EngineTurnStepsEngine :
    (State.reset.withAgenda [.engine]).bus.agenda = .engine :: [] ∧ State.reset.bus.agenda = [] ∧
    State.reset.eng.fsm = .idle := by decide

theorem witness_EveryStepKeepsInv :
    Inv runningFpe ∧ stepWith toyP runningFpe = .next (engineStep toyP runningFpe) :=
  ⟨inv_runningFpe, rfl⟩

theorem walkInv_runningFpe : WalkInv toyP runningFpe := by
  refine ⟨fun _ => by decide, fun _ _ i h1 h2 => ?_, fun _ _ h => absurd rfl h⟩
  have h2 : i ≤ 0 := h2
  omega

theorem witness_EveryStepKeepsWalkInv :
    Inv runningFpe ∧ WalkInv toyP runningFpe ∧
      stepWith toyP runningFpe = .next (engineStep toyP runningFpe) :=
  ⟨inv_runningFpe, walkInv_runningFpe, rfl⟩

theorem witness_BusyEngineCompletes :
    Inv runningFpe ∧ WalkInv toyP runningFpe ∧ runningFpe.regs.status.busy = true ∧
      runningFpe.bus.agenda = [] := ⟨inv_runningFpe, walkInv_runningFpe, by decide⟩

/-- A reset edge in the middle of a host's accesses, and a start with the reset input asserted. -/
theorem witness_LegalHostNeverStops :
    agendaLegal false (disturbed ++ [.resetAssert, .engine, .resetRelease, rd .status]) = true ∧
    agendaLegal true (.resetRelease :: disturbed) = true ∧
    (State.reset.withAgenda disturbed).bus.resetIn = false := by decide

/-- An outcome of the walk, and a failed check, which needs no turn. -/
theorem witness_RunFpeReadsWalk :
    (∃ s : State, s.regs.status.busy = false ∧ s.bus.resetIn = false ∧ [3, 5] ≠ [] ∧
      fpeWalk toyP.roundF 1 5 0x2A s.regs.walkLimit = some (.ok 2 2) ∧
      fpeTurns 5 (.ok 2 2) ≤ [3, 5].sum ∧ s.bus.agenda = runFpe 1 5 0x2A [3, 5]) ∧
    (∃ s : State, s.regs.status.busy = false ∧ s.bus.resetIn = false ∧ [0] ≠ [] ∧
      fpeWalk toyP.roundF 5 0 0 s.regs.walkLimit = some (.error .nZero 0) ∧
      fpeTurns 0 (.error .nZero 0) ≤ [0].sum ∧ s.bus.agenda = runFpe 5 0 0 [0]) :=
  ⟨⟨State.reset.withAgenda (runFpe 1 5 0x2A [3, 5]), by decide⟩,
   ⟨State.reset.withAgenda (runFpe 5 0 0 [0]), by decide⟩⟩

end Sys2Proof.Tests
end

/-! # CLOG2 (00_scope.md R15) -/

section
namespace Sys2Proof.Machine

/-- The search of `clog2` never runs past its range, so it finds the library's ceiling logarithm. -/
theorem clog2_eq_clog {n : Nat} (h : n ≤ 2 ^ 64) : clog2 n = Nat.clog 2 n := by
  have hle : Nat.clog 2 n ≤ 64 := Nat.clog_le_of_le_pow h
  have hfind : (List.range 65).find? (fun b => decide (n ≤ 2 ^ b)) = some (Nat.clog 2 n) := by
    rw [List.find?_range_eq_some]
    refine ⟨decide_eq_true (Nat.le_pow_clog Nat.one_lt_two n), List.mem_range.2 (by omega), ?_⟩
    intro b hb
    have : ¬ n ≤ 2 ^ b := Nat.not_le.2 (Nat.pow_lt_of_lt_clog hb)
    simp [this]
  rw [clog2_eq_find, hfind, Option.getD_some]

theorem clog2_le_iff {n : Nat} (h : n ≤ 2 ^ 64) (b : Nat) : clog2 n ≤ b ↔ n ≤ 2 ^ b := by
  rw [clog2_eq_clog h, Nat.clog_le_iff_le_pow Nat.one_lt_two]

theorem clog2_two_pow {k : Nat} (h : k ≤ 64) : clog2 (2 ^ k) = k := by
  rw [clog2_eq_clog (Nat.pow_le_pow_right Nat.two_pos h), Nat.clog_pow 2 k Nat.one_lt_two]

/-- One above a power of two takes one more bit. -/
theorem clog2_two_pow_add_one {k : Nat} (h : k ≤ 63) : clog2 (2 ^ k + 1) = k + 1 := by
  have hle : 2 ^ k + 1 ≤ 2 ^ (k + 1) := Nat.pow_lt_pow_right Nat.one_lt_two k.lt_succ_self
  have h64 : 2 ^ k + 1 ≤ 2 ^ 64 := hle.trans (Nat.pow_le_pow_right Nat.two_pos (by omega))
  apply Nat.le_antisymm
  · exact (clog2_le_iff h64 _).2 hle
  · have : ¬ clog2 (2 ^ k + 1) ≤ k := fun hk => Nat.not_succ_le_self _ ((clog2_le_iff h64 k).1 hk)
    omega

/-- Settles O24: `clog2` is the library's ceiling logarithm on the rule's range. -/
theorem clog2IsLeastExponent : Obligations.Clog2IsLeastExponent := by
  unfold Obligations.Clog2IsLeastExponent
  refine ⟨fun n _ hn => ⟨(clog2_le_iff hn.le 64).2 hn.le, clog2_le_iff hn.le⟩, ?_, ?_, ?_, ?_⟩
  · exact clog2_two_pow (k := 0) (by decide)
  · exact clog2_two_pow (k := 1) (by decide)
  · exact fun k hk => clog2_two_pow (by omega)
  · exact fun k hk => clog2_two_pow_add_one hk

end Sys2Proof.Machine
end

/-! # A running command and the host (00_scope.md R19, 40_command.md R103) -/

section
namespace Sys2Proof.Machine

/-- Two states in which the running command stands at the same point and has recorded the same: they
may differ in what the host writes, in OVR and on the bus. -/
structure SameCommand (s t : State) : Prop where
  eng : t.eng = s.eng
  result : t.regs.result = s.regs.result
  iter : t.regs.iter = s.regs.iter
  busy : t.regs.status.busy = s.regs.status.busy
  done : t.regs.status.done = s.regs.status.done
  err : t.regs.status.err = s.regs.status.err
  errcode : t.regs.status.errcode = s.regs.status.errcode

/-- STATUS while a command runs: BUSY, and nothing that an acknowledgement could clear but OVR
(40_command.md R101, R102). -/
structure Running (s : State) : Prop where
  busy : s.regs.status.busy = true
  done : s.regs.status.done = false
  err : s.regs.status.err = false

/-! ## The engine agent -/

theorem engineSteps_succ (P : Params) (m : Nat) (s : State) :
    engineSteps P (m + 1) s = engineStep P (engineSteps P m s) := by
  rw [engineSteps_add]
  rfl

/-- A check that does not end the command leaves the registers alone. -/
theorem walkCheck_regs {s : State} (h : (walkCheck s).eng.fsm ≠ .idle) :
    (walkCheck s).regs = s.regs := by
  obtain ⟨-, hw⟩ | ⟨-, -, -, hw⟩ | ⟨-, -, hw⟩ := walkCheck_cases s
  · simp [hw] at h
  · simp [hw] at h
  · rw [hw]

/-- An engine step that does not end the command leaves the registers alone. -/
theorem engineStep_regs {P : Params} {s : State} (h : (engineStep P s).eng.fsm ≠ .idle) :
    (engineStep P s).regs = s.regs := by
  obtain ⟨-, he⟩ | ⟨-, he⟩ | ⟨-, he⟩ | ⟨-, he⟩ := engineStep_cases P s
  · rw [he]
  · simp [he] at h
  · simp [he] at h
  · rw [he] at h ⊢
    by_cases hr : s.eng.round < 3
    · rw [stepRound_early hr, withEng_regs]
    · by_cases ho : s.eng.op = .feistel
      · simp [stepRound_feistel hr ho] at h
      · rw [stepRound_walk hr ho] at h ⊢
        exact walkCheck_regs h

/-- While no step has ended the command, the registers are those it began with. -/
theorem engineSteps_regs {P : Params} {s : State} (m : Nat)
    (h : ∀ j, j ≤ m → (engineSteps P j s).eng.fsm ≠ .idle) :
    (engineSteps P m s).regs = s.regs := by
  induction m with
  | zero => rfl
  | succ m ih =>
    have hm := h (m + 1) le_rfl
    rw [engineSteps_succ] at hm ⊢
    rw [engineStep_regs hm, ih fun j hj => h j (by omega)]

/-- STATUS keeps saying that the command runs until a step ends it. -/
theorem Running.engineSteps {P : Params} {s : State} {m : Nat} (hs : Running s)
    (h : ∀ j, j ≤ m → (engineSteps P j s).eng.fsm ≠ .idle) : Running (engineSteps P m s) := by
  have hregs := engineSteps_regs m h
  exact ⟨by rw [hregs, hs.busy], by rw [hregs, hs.done], by rw [hregs, hs.err]⟩

/-! ## States with the same command -/

namespace SameCommand

theorem refl (s : State) : SameCommand s s := ⟨rfl, rfl, rfl, rfl, rfl, rfl, rfl⟩

theorem trans {s t u : State} (h : SameCommand s t) (h' : SameCommand t u) : SameCommand s u :=
  ⟨h'.eng.trans h.eng, h'.result.trans h.result, h'.iter.trans h.iter, h'.busy.trans h.busy,
    h'.done.trans h.done, h'.err.trans h.err, h'.errcode.trans h.errcode⟩

variable {s t : State}

theorem running (h : SameCommand s t) (hs : Running s) : Running t :=
  ⟨h.busy.trans hs.busy, h.done.trans hs.done, h.err.trans hs.err⟩

theorem withEng (h : SameCommand s t) (e : Engine) : SameCommand (s.withEng e) (t.withEng e) :=
  { h with eng := rfl }

theorem completeOk (h : SameCommand s t) (v it : Word) :
    SameCommand (completeOk v it s) (completeOk v it t) :=
  ⟨by simp [h.eng], rfl, rfl, rfl, rfl, rfl, rfl⟩

theorem completeError (h : SameCommand s t) (c : ErrorCode) (it : Word) :
    SameCommand (completeError c it s) (completeError c it t) :=
  ⟨by simp [h.eng], h.result, rfl, rfl, rfl, rfl, rfl⟩

theorem walkCheck (h : SameCommand s t) : SameCommand (walkCheck s) (walkCheck t) := by
  simp only [Machine.walkCheck, h.eng]
  split
  · exact h.completeOk _ _
  · split
    · exact h.completeError _ _
    · exact h

theorem stepRound (P : Params) (h : SameCommand s t) :
    SameCommand (stepRound P s) (stepRound P t) := by
  simp only [Machine.stepRound, h.eng]
  split
  · exact h.withEng _
  · split
    · exact (h.withEng _).completeOk _ _
    · exact (h.withEng _).walkCheck

/-- The engine reads nothing but its own latched state (R103). -/
theorem engineStep (P : Params) (h : SameCommand s t) :
    SameCommand (engineStep P s) (engineStep P t) := by
  simp only [Machine.engineStep, stepMix, stepIdent, h.eng]
  split
  · exact h
  · exact h.completeOk _ _
  · exact h.stepRound P
  · exact h.completeOk _ _

theorem engineSteps (P : Params) (m : Nat) (h : SameCommand s t) :
    SameCommand (engineSteps P m s) (engineSteps P m t) := by
  induction m generalizing s t with
  | zero => exact h
  | succ m ih => exact ih (h.engineStep P)

end SameCommand

/-! ## The host agent -/

/-- A register write beside a running command: it has no DONE and no ERR to acknowledge. -/
theorem sameCommand_writeReg {s : State} (hs : Running s) (r : Reg) (v : Word) :
    SameCommand s (writeReg r v s) := by
  cases r with
  | status =>
    exact { SameCommand.refl s with
      done := by simp [writeReg, statusAfterWrite, hs.done]
      err := by simp [writeReg, statusAfterWrite, hs.err] }
  | _ => exact ⟨rfl, rfl, rfl, rfl, rfl, rfl, rfl⟩

/-- A write beside a running command: a CMD write is lost (R108), an operand was latched (R240). -/
theorem sameCommand_hostWrite {s t : State} {off : Nat} {v : Word} (hs : Running s)
    (h : hostWrite off v s = .next t) : SameCommand s t := by
  obtain ⟨-, hw⟩ | ⟨r, -, -, hw⟩ | ⟨-, hw⟩ := hostWrite_cases h
  · rw [command_busy v hs.busy] at hw
    cases hw
    exact ⟨rfl, rfl, rfl, rfl, rfl, rfl, rfl⟩
  · cases hw
    exact sameCommand_writeReg hs r v
  · cases hw
    exact .refl s

/-- A legal access beside a running command gives a next state with the same command. -/
theorem hostAccess_running {s : State} {a : Access} (hs : Running s) (ha : a.legal = true) :
    ∃ t, hostAccess a s = .next t ∧ SameCommand s t ∧
      t.bus.agenda = s.bus.agenda ∧ t.bus.resetIn = s.bus.resetIn := by
  obtain ⟨hl, -⟩ | ⟨off, -, -, h⟩ | ⟨off, v, -, -, h⟩ := hostAccess_cases (a := a) (s := s) rfl
  · simp [ha] at hl
  · exact ⟨_, h, ⟨rfl, rfl, rfl, rfl, rfl, rfl, rfl⟩, rfl, rfl⟩
  · obtain ⟨t, ht⟩ := hostWrite_next off v s
    have hbus := hostWrite_bus ht
    exact ⟨t, h.trans ht, sameCommand_hostWrite hs ht, by rw [hbus], by rw [hbus]⟩

/-! ## Their interleavings -/

theorem sameCommand_withAgenda (s : State) (evs : List Event) : SameCommand s (s.withAgenda evs) :=
  ⟨rfl, rfl, rfl, rfl, rfl, rfl, rfl⟩

/-- One quiet event beside a running command moves it on by as many steps as the event has engine
turns: one for the engine's, none for an access. -/
theorem stepWith_quiet (P : Params) {s : State} {ev : Event} {evs : List Event} (hs : Running s)
    (hr : s.bus.resetIn = false) (hq : ev.quiet = true) (ha : s.bus.agenda = ev :: evs) :
    ∃ t, stepWith P s = .next t ∧ SameCommand (engineSteps P (engineTurns [ev]) s) t ∧
      t.bus.agenda = evs ∧ t.bus.resetIn = false := by
  have hsame := sameCommand_withAgenda s evs
  cases ev with
  | access a =>
    obtain ⟨t, ht, hst, hta, htr⟩ := hostAccess_running (hsame.running hs) hq
    exact ⟨t, (stepWith_access hr ha).trans ht, hsame.trans hst, hta, htr.trans hr⟩
  | engine =>
    refine ⟨engineStep P (s.withAgenda evs), ?_, hsame.engineStep P, ?_, ?_⟩
    · simp only [stepWith, runNext, ha, runEvent]
    · rw [engineStep_bus, withAgenda_bus]
    · rw [engineStep_bus, withAgenda_bus, hr]
  | resetAssert => cases hq
  | resetRelease => cases hq

theorem engineTurns_cons (ev : Event) (evs : List Event) :
    engineTurns (ev :: evs) = engineTurns [ev] + engineTurns evs := by
  rw [engineTurns, ← List.singleton_append, List.count_append]
  rfl

theorem runWith_one {P : Params} {s t : State} (h : stepWith P s = .next t) :
    runWith P 1 s = .next t := by
  simp only [runWith, h]

/-- Quiet events beside a command that they do not end move it on by their engine turns. -/
theorem runWith_quiet (P : Params) {s : State} {evs rest : List Event} (hs : Running s)
    (hr : s.bus.resetIn = false) (hq : ∀ ev ∈ evs, ev.quiet = true)
    (ha : s.bus.agenda = evs ++ rest)
    (hrun : ∀ j, j ≤ engineTurns evs → (engineSteps P j s).eng.fsm ≠ .idle) :
    ∃ t, runWith P evs.length s = .next t ∧ SameCommand (engineSteps P (engineTurns evs) s) t ∧
      t.bus.agenda = rest ∧ t.bus.resetIn = false := by
  induction evs generalizing s with
  | nil => exact ⟨s, rfl, .refl s, ha, hr⟩
  | cons ev evs ih =>
    rw [engineTurns_cons] at hrun ⊢
    obtain ⟨hqev, hqevs⟩ := List.forall_mem_cons.1 hq
    obtain ⟨u, hu, hsame, hua, hur⟩ := stepWith_quiet P hs hr hqev ha
    have hsu : Running (engineSteps P (engineTurns [ev]) s) :=
      hs.engineSteps fun j hj => hrun j (by omega)
    have hurun : ∀ j, j ≤ engineTurns evs → (engineSteps P j u).eng.fsm ≠ .idle := by
      intro j hj
      rw [(hsame.engineSteps P j).eng, ← engineSteps_add]
      exact hrun _ (by omega)
    obtain ⟨t, ht, hut, hta, htr⟩ := ih (hsame.running hsu) hur hqevs hua hurun
    refine ⟨t, ?_, ?_, hta, htr⟩
    · rw [List.length_cons, Nat.add_comm, runWith_add (runWith_one hu), ht]
    · rw [engineSteps_add]
      exact (hsame.engineSteps P _).trans hut

/-- The invariant's STATUS while busy. -/
theorem Inv.running {s : State} (h : Inv s) (hb : s.regs.status.busy = true) : Running s where
  busy := hb
  done := by
    cases hd : s.regs.status.done
    · rfl
    · exact absurd (h.done_not_busy hd) (by simp [hb])
  err := (h.no_error_while_busy hb).1

/-- Settles O45: the events keep the command in step with the engine alone, and so does the last turn. -/
theorem runningCommandIgnoresHost : Obligations.RunningCommandIgnoresHost := by
  unfold Obligations.RunningCommandIgnoresHost
  intro P s evs rest hinv hbusy hr hq ha hrun
  have hs := hinv.running hbusy
  obtain ⟨u, hu, hsame, hua, hur⟩ := runWith_quiet P hs hr hq ha hrun
  have hurun := hsame.running (hs.engineSteps hrun)
  obtain ⟨t, ht, hut, -, -⟩ := stepWith_quiet P hurun hur rfl hua
  have hlast : SameCommand (engineSteps P (engineTurns evs + 1) s) t := by
    rw [engineSteps_add]
    exact (hsame.engineSteps P 1).trans hut
  exact ⟨t, (runWith_add hu).trans (runWith_one ht), hlast.eng, hlast.result, hlast.iter,
    hlast.busy, hlast.done, hlast.err, hlast.errcode⟩

end Sys2Proof.Machine
end

/-! # What one step does (10_state.md R35, R36, 40_command.md R100 to R108)

Two inversion principles, over an engine step and over a machine step; each statement about every step
is a case analysis over them. -/

section
namespace Sys2Proof.Machine

/-! ## An engine step -/

/-- What an engine step can make of `s`. A completion may come with the values of the last round in the
engine; `advanced` is a round after which the command still runs. -/
inductive EngineEffect (P : Params) (s : State) : State → Prop where
  | idle (hidle : s.eng.fsm = .idle) : EngineEffect P s s
  | advanced {round : Nat} {iter : Word} (hrounds : s.eng.fsm = .rounds) (hround : round ≤ 3)
      (hiter : s.eng.op = .feistel → iter = s.eng.iter) :
      EngineEffect P s (s.withEng { s.eng with
        w := feistelRound P.roundF s.eng.w s.eng.lb s.eng.rb s.eng.k, round := round, iter := iter })
  | completed {w iter v it : Word} {round : Nat} (hrun : s.eng.fsm ≠ .idle)
      (hround : round ≤ s.eng.round) :
      EngineEffect P s
        (completeOk v it (s.withEng { s.eng with w := w, round := round, iter := iter }))
  | exhausted {w iter it : Word} {round : Nat} (hrun : s.eng.fsm ≠ .idle)
      (hround : round ≤ s.eng.round) :
      EngineEffect P s
        (completeError .walkExhausted it
          (s.withEng { s.eng with w := w, round := round, iter := iter }))

theorem stepRound_effect (P : Params) {s : State} (hf : s.eng.fsm = .rounds) :
    EngineEffect P s (stepRound P s) := by
  have hrun : s.eng.fsm ≠ .idle := by simp [hf]
  by_cases hr : s.eng.round < 3
  · rw [stepRound_early hr]
    exact .advanced hf hr fun _ => rfl
  · by_cases ho : s.eng.op = .feistel
    · rw [stepRound_feistel hr ho]
      exact .completed hrun (Nat.zero_le _)
    · rw [stepRound_walk hr ho]
      obtain ⟨-, h⟩ | ⟨-, -, -, h⟩ | ⟨-, -, h⟩ := walkCheck_cases (afterApplication P s) <;> rw [h]
      · exact .completed hrun (Nat.zero_le _)
      · exact .exhausted hrun (Nat.zero_le _)
      · exact .advanced hf (Nat.zero_le _) fun h => absurd h ho

theorem engineStep_effect (P : Params) (s : State) : EngineEffect P s (engineStep P s) := by
  obtain ⟨hf, h⟩ | ⟨hf, h⟩ | ⟨hf, h⟩ | ⟨hf, h⟩ := engineStep_cases P s <;> rw [h]
  · exact .idle hf
  · exact .completed (w := s.eng.w) (iter := s.eng.iter) (by simp [hf]) le_rfl
  · exact .completed (w := s.eng.w) (iter := s.eng.iter) (by simp [hf]) le_rfl
  · exact stepRound_effect P hf

/-! ## Acceptance -/

/-- The commands that begin to run from the state `s` in which the operands are latched, with what their
acceptance checked (41_mix.md R122, 42_feistel.md R145, 43_cycle_walk.md R174). -/
inductive Starts (s : State) : Instr → State → Prop where
  | mix : Starts s .mix (startRunning .mix .mixing s)
  | feistel {lb rb : Nat} (hlb : 1 ≤ lb) (hrb : 1 ≤ rb) (hsum : lb + rb ≤ 64) :
      Starts s (.feistel lb rb) (startRunning .feistel .rounds (loadRounds lb rb s))
  | ident (hn : s.eng.n = 1) (hx : s.eng.x = 0) : Starts s .fpe (startRunning .fpe .ident s)
  | walk (hn : 2 ≤ s.eng.n.toNat) (hx : s.eng.x.toNat < s.eng.n.toNat) :
      Starts s .fpe (startRunning .fpe .rounds
        (loadRounds (widths s.eng.n.toNat).1 (widths s.eng.n.toNat).2 s))

theorem Starts.ne_nop {s t : State} {i : Instr} (h : Starts s i t) : i ≠ .nop := by
  cases h <;> simp

theorem Starts.regs {s t : State} {i : Instr} (h : Starts s i t) :
    t.regs = { s.regs with status := { s.regs.status with busy := true } } := by
  cases h <;> rfl

theorem Starts.fsm_ne_idle {s t : State} {i : Instr} (h : Starts s i t) : t.eng.fsm ≠ .idle := by
  cases h <;> simp

theorem acceptFeistel_cases (lb rb : Nat) (s : State) :
    Starts s (.feistel lb rb) (acceptFeistel lb rb s) ∨
      acceptFeistel lb rb s = completeError .badWidth 0 s := by
  unfold acceptFeistel
  split
  · next h =>
    obtain ⟨⟨hlb, hrb⟩, hsum⟩ : (1 ≤ lb ∧ 1 ≤ rb) ∧ lb + rb ≤ 64 := by simpa [widthsLegal] using h
    exact .inl (.feistel hlb hrb hsum)
  · exact .inr rfl

theorem acceptFpe_cases (s : State) :
    Starts s .fpe (acceptFpe s) ∨ ∃ c, acceptFpe s = completeError c 0 s := by
  unfold acceptFpe
  split
  · exact .inr ⟨_, rfl⟩
  · split
    · exact .inr ⟨_, rfl⟩
    · next hn0 hx =>
      have hlt : s.eng.x.toNat < s.eng.n.toNat := BitVec.lt_def.1 (BitVec.not_le.1 hx)
      split
      · next hn =>
        rw [hn] at hlt
        exact .inl (.ident hn (BitVec.eq_of_toNat_eq (Nat.lt_one_iff.1 hlt)))
      · next hn1 =>
        have h1 : s.eng.n.toNat ≠ 1 := fun h => hn1 (BitVec.eq_of_toNat_eq h)
        exact .inl (.walk (by omega) hlt)

/-- What a legal word does on an idle engine: nothing, completion with an error, or a running command. -/
theorem actOf_cases (i : Instr) (s : State) :
    (i = .nop ∧ actOf i s = s) ∨
    (i ≠ .nop ∧ ∃ c, actOf i s = completeError c 0 (accept s)) ∨
    Starts (accept s) i (actOf i s) := by
  cases i with
  | nop => exact .inl ⟨rfl, rfl⟩
  | mix => exact .inr (.inr .mix)
  | feistel lb rb =>
    obtain h | h := acceptFeistel_cases lb rb (accept s)
    · exact .inr (.inr h)
    · exact .inr (.inl ⟨by simp, _, h⟩)
  | fpe =>
    obtain h | h := acceptFpe_cases (accept s)
    · exact .inr (.inr h)
    · exact .inr (.inl ⟨by simp, h⟩)

/-! ## A machine step -/

/-- The step of a chip from `s` was the engine's: its turn, or nothing else to come. -/
def EngineNext (s : State) : Prop := s.bus.agenda = [] ∨ ∃ evs, s.bus.agenda = .engine :: evs

/-- What a machine step can make of `s`, with the event that did it. `untouched` gathers what leaves the
registers and the engine alone: a read, a write to a reserved slot, NOP and the release of reset. -/
inductive StepEffect (P : Params) (s : State) : State → Prop where
  | engine {evs : List Event} (hnext : EngineNext s) : StepEffect P s (engineStep P (s.withAgenda evs))
  | reset {evs : List Event} (hev : s.bus.agenda = .resetAssert :: evs) :
      StepEffect P s ((applyReset (s.withAgenda evs)).withResetIn true)
  | untouched {t : State} (hregs : t.regs = s.regs) (heng : t.eng = s.eng)
      (hreset : t.bus.resetIn = true → s.bus.resetIn = true) : StepEffect P s t
  | register {r : Reg} {v : Word} {evs : List Event} (hreset : s.bus.resetIn = false)
      (hev : s.bus.agenda = .access (.write r.offset 8 v) :: evs) (hcmd : r ≠ .cmd) :
      StepEffect P s (writeReg r v (s.withAgenda evs))
  | lost {v : Word} {evs : List Event} (hreset : s.bus.resetIn = false)
      (hev : s.bus.agenda = .access (.write 0 8 v) :: evs) (hbusy : s.regs.status.busy = true) :
      StepEffect P s (lostCommand (s.withAgenda evs))
  | failed {v : Word} {evs : List Event} {c : ErrorCode} (hreset : s.bus.resetIn = false)
      (hev : s.bus.agenda = .access (.write 0 8 v) :: evs) (hidle : s.regs.status.busy = false)
      (hnop : decode v ≠ .ok .nop) :
      StepEffect P s (completeError c 0 (accept (s.withAgenda evs)))
  | started {v : Word} {evs : List Event} {i : Instr} {t : State} (hreset : s.bus.resetIn = false)
      (hev : s.bus.agenda = .access (.write 0 8 v) :: evs) (hidle : s.regs.status.busy = false)
      (hdecode : decode v = .ok i) (hstart : Starts (accept (s.withAgenda evs)) i t) :
      StepEffect P s t

theorem command_effect {P : Params} {s t : State} {v : Word} {evs : List Event}
    (hreset : s.bus.resetIn = false) (hev : s.bus.agenda = .access (.write 0 8 v) :: evs)
    (h : command v (s.withAgenda evs) = .next t) : StepEffect P s t := by
  obtain ⟨hb, h⟩ | ⟨hb, i, hd, h⟩ | ⟨hb, ⟨e, hd⟩, h⟩ := command_cases h <;> cases h
  · exact .lost hreset hev hb
  · obtain ⟨-, h⟩ | ⟨hi, c, h⟩ | h := actOf_cases i (s.withAgenda evs)
    · rw [h]
      exact .untouched rfl rfl id
    · rw [h]
      exact .failed hreset hev hb (by simpa [hd] using hi)
    · exact .started hreset hev hb hd h
  · exact .failed hreset hev hb (by simp [hd])

theorem hostWrite_effect {P : Params} {s t : State} {off : Nat} {v : Word} {evs : List Event}
    (hreset : s.bus.resetIn = false) (hev : s.bus.agenda = .access (.write off 8 v) :: evs)
    (h : hostWrite off v (s.withAgenda evs) = .next t) : StepEffect P s t := by
  obtain ⟨rfl, hw⟩ | ⟨r, hr, rfl, hw⟩ | ⟨-, hw⟩ := hostWrite_cases h
  · exact command_effect hreset hev hw.symm
  · cases hw
    exact .register hreset hev hr
  · cases hw
    exact .untouched rfl rfl id

theorem stepWith_effect {P : Params} {s t : State} (h : stepWith P s = .next t) :
    StepEffect P s t := by
  obtain ⟨ha, rfl⟩ | ⟨evs, ha, rfl⟩ | ⟨evs, ha, rfl⟩ | ⟨evs, ha, rfl⟩ | ⟨a, evs, ha, hr, h⟩ :=
    stepWith_cases h
  · exact .engine (evs := s.bus.agenda) (.inl ha)
  · exact .engine (.inr ⟨evs, ha⟩)
  · exact .reset ha
  · exact .untouched rfl rfl (by simp)
  · obtain ⟨-, h⟩ | ⟨off, rfl, -, h⟩ | ⟨off, v, rfl, -, h⟩ := hostAccess_cases h
    · cases h
    · cases h
      exact .untouched rfl rfl id
    · exact hostWrite_effect hr ha h.symm

end Sys2Proof.Machine
end

/-! # The structural invariant (10_state.md R37) -/

section
namespace Sys2Proof.Machine

/-- The ranges of the round counter and the widths (R35), and a machine that is not held in reset. -/
structure InRange (s : State) : Prop where
  round_le : s.eng.round ≤ 3
  lb_le : s.eng.lb ≤ 64
  rb_le : s.eng.rb ≤ 64
  released : s.bus.resetIn = false

/-- What `Inv` asks of the engine of a running command, control state by control state. -/
structure PhaseInv (e : Engine) : Prop where
  mixing_op : e.fsm = .mixing → e.op = .mix
  ident_op : e.fsm = .ident → e.op = .fpe ∧ e.n = 1 ∧ e.x = 0
  rounds_op : e.fsm = .rounds → e.op = .feistel ∨ e.op = .fpe
  feistel_rounds : e.fsm = .rounds → e.op = .feistel →
    1 ≤ e.lb ∧ 1 ≤ e.rb ∧ e.lb + e.rb ≤ 64 ∧ e.iter = 0
  fpe_rounds : e.fsm = .rounds → e.op = .fpe →
    e.lb ≤ e.rb ∧ e.lb + e.rb = clog2 e.n.toNat ∧ 2 ≤ e.n.toNat ∧ e.x.toNat < e.n.toNat ∧
      e.w.toNat < 2 ^ (e.lb + e.rb)

namespace Inv

variable {s t : State}

/-! ## What the invariant gives -/

theorem busy_of_running (h : Inv s) (hrun : s.eng.fsm ≠ .idle) : s.regs.status.busy = true :=
  h.busy_iff_running.2 hrun

theorem idle_of_not_busy (h : Inv s) (hb : s.regs.status.busy = false) : s.eng.fsm = .idle := by
  by_contra hrun
  simp [h.busy_of_running hrun] at hb

theorem released_of_running (h : Inv s) (hrun : s.eng.fsm ≠ .idle) : s.bus.resetIn = false := by
  cases hr : s.bus.resetIn
  · rfl
  · exact absurd (by rw [(h.reset_held hr).2]; rfl) hrun

theorem inRange (h : Inv s) (hr : s.bus.resetIn = false) : InRange s :=
  ⟨h.round_le, h.lb_le, h.rb_le, hr⟩

theorem phase (h : Inv s) : PhaseInv s.eng :=
  ⟨h.mixing_op, h.ident_op, h.rounds_op, h.feistel_rounds, h.fpe_rounds⟩

/-! ## What gives the invariant -/

/-- The invariant of an idle engine that is not held in reset. -/
theorem of_idle (hidle : s.eng.fsm = .idle) (hbusy : s.regs.status.busy = false)
    (herr : s.regs.status.err = true → s.regs.status.errcode ≠ 0)
    (hcode : s.regs.status.errcode.toNat ≤ 5) (hrange : InRange s) : Inv s where
  busy_iff_running := by simp [hidle, hbusy]
  done_not_busy := fun _ => hbusy
  no_error_while_busy := by simp [hbusy]
  error_has_code := herr
  errcode_produced := hcode
  round_le := hrange.round_le
  lb_le := hrange.lb_le
  rb_le := hrange.rb_le
  mixing_op := by simp [hidle]
  ident_op := by simp [hidle]
  rounds_op := by simp [hidle]
  feistel_rounds := by simp [hidle]
  fpe_rounds := by simp [hidle]
  reset_held := by simp [hrange.released]

/-- The invariant of a running command. -/
theorem of_running (hrun : s.eng.fsm ≠ .idle) (hst : Running s)
    (hcode : s.regs.status.errcode = 0) (hrange : InRange s) (hphase : PhaseInv s.eng) : Inv s where
  busy_iff_running := by simp [hrun, hst.busy]
  done_not_busy := by simp [hst.done]
  no_error_while_busy := fun _ => ⟨hst.err, hcode⟩
  error_has_code := by simp [hst.err]
  errcode_produced := by simp [hcode]
  round_le := hrange.round_le
  lb_le := hrange.lb_le
  rb_le := hrange.rb_le
  mixing_op := hphase.mixing_op
  ident_op := hphase.ident_op
  rounds_op := hphase.rounds_op
  feistel_rounds := hphase.feistel_rounds
  fpe_rounds := hphase.fpe_rounds
  reset_held := by simp [hrange.released]

/-- What the host may do to STATUS keeps the invariant: clear DONE and ERR, and anything to OVR. -/
theorem of_same_engine (h : Inv s) (heng : t.eng = s.eng)
    (hbusy : t.regs.status.busy = s.regs.status.busy)
    (hcode : t.regs.status.errcode = s.regs.status.errcode)
    (hdone : t.regs.status.done = true → s.regs.status.done = true)
    (herr : t.regs.status.err = true → s.regs.status.err = true)
    (hreset : t.bus.resetIn = true → t.regs = .reset ∧ t.eng = .reset) : Inv t where
  busy_iff_running := by rw [hbusy, heng]; exact h.busy_iff_running
  done_not_busy := fun hd => by rw [hbusy]; exact h.done_not_busy (hdone hd)
  no_error_while_busy := by
    intro hb
    rw [hbusy] at hb
    obtain ⟨he, hc⟩ := h.no_error_while_busy hb
    exact ⟨Bool.eq_false_iff.2 fun ht => by simp [herr ht] at he, hcode.trans hc⟩
  error_has_code := fun he => by rw [hcode]; exact h.error_has_code (herr he)
  errcode_produced := by rw [hcode]; exact h.errcode_produced
  round_le := by rw [heng]; exact h.round_le
  lb_le := by rw [heng]; exact h.lb_le
  rb_le := by rw [heng]; exact h.rb_le
  mixing_op := by rw [heng]; exact h.mixing_op
  ident_op := by rw [heng]; exact h.ident_op
  rounds_op := by rw [heng]; exact h.rounds_op
  feistel_rounds := by rw [heng]; exact h.feistel_rounds
  fpe_rounds := by rw [heng]; exact h.fpe_rounds
  reset_held := hreset

/-- The reset values meet the invariant, whatever the level of the reset input. -/
theorem of_reset (hregs : s.regs = .reset) (heng : s.eng = .reset) : Inv s := by
  have h : Inv State.reset :=
    of_idle rfl rfl (by simp [State.reset, Regs.reset]) (Nat.zero_le 5)
      ⟨Nat.zero_le 3, Nat.zero_le 64, Nat.zero_le 64, rfl⟩
  exact h.of_same_engine heng (by rw [hregs]; rfl) (by rw [hregs]; rfl)
    (fun hd => by rwa [hregs] at hd) (fun he => by rwa [hregs] at he) fun _ => ⟨hregs, heng⟩

end Inv

theorem inv_completeOk {s : State} (v it : Word) (h : InRange s) : Inv (completeOk v it s) :=
  .of_idle rfl rfl (by simp) (by simp) ⟨h.round_le, h.lb_le, h.rb_le, h.released⟩

/-- Every error code is one of R200's, and none is 0. -/
theorem ErrorCode.code_range (c : ErrorCode) : c.code ≠ 0 ∧ c.code.toNat ≤ 5 := by
  cases c <;> decide

theorem inv_completeError {s : State} (c : ErrorCode) (it : Word) (h : InRange s) :
    Inv (completeError c it s) :=
  .of_idle rfl rfl (fun _ => c.code_range.1) c.code_range.2
    ⟨h.round_le, h.lb_le, h.rb_le, h.released⟩

/-! ## Each step keeps it -/

theorem clog2_le_64 (n : Word) : clog2 n.toNat ≤ 64 := (clog2_le_iff n.isLt.le 64).2 n.isLt.le

theorem le_two_pow_clog2 (n : Word) : n.toNat ≤ 2 ^ clog2 n.toNat :=
  (clog2_le_iff n.isLt.le _).1 le_rfl

/-- A command begins to run in a control state and with a block that fit it. -/
theorem Starts.phase {s t : State} {i : Instr} (h : Starts s i t) : PhaseInv t.eng := by
  cases h with
  | mix => constructor <;> simp
  | feistel hlb hrb hsum => constructor <;> simp [hlb, hrb, hsum]
  | ident hn hx => constructor <;> simp [hn, hx]
  | walk hn hx =>
    have hw := hx.trans_le (le_two_pow_clog2 s.eng.n)
    constructor <;> simp [widths_sum, widths_le, hn, hx, hw]

theorem Starts.inRange {s t : State} {i : Instr} (h : Starts s i t) (hs : InRange s) : InRange t := by
  obtain ⟨hround, hl, hr, hreset⟩ := hs
  cases h with
  | mix => exact ⟨hround, hl, hr, hreset⟩
  | feistel hlb hrb hsum =>
    exact ⟨Nat.zero_le 3, (Nat.le_add_right _ _).trans hsum, (Nat.le_add_left _ _).trans hsum, hreset⟩
  | ident hn hx => exact ⟨hround, hl, hr, hreset⟩
  | walk hn hx =>
    have hsum := (widths_sum s.eng.n.toNat).trans_le (clog2_le_64 s.eng.n)
    exact ⟨Nat.zero_le 3, (Nat.le_add_right _ _).trans hsum, (Nat.le_add_left _ _).trans hsum, hreset⟩

theorem Starts.inv {s t : State} {i : Instr} (h : Starts (accept s) i t) (hs : InRange s) : Inv t := by
  have haccept : InRange (accept s) := ⟨hs.round_le, hs.lb_le, hs.rb_le, hs.released⟩
  refine .of_running h.fsm_ne_idle ⟨?_, ?_, ?_⟩ ?_ (h.inRange haccept) h.phase <;> simp [h.regs]

/-- A round keeps what the control state asks: the block stays in the domain (R147). -/
theorem PhaseInv.advance {P : Params} {e : Engine} {round : Nat} {iter : Word} (h : PhaseInv e)
    (hf : e.fsm = .rounds) (hiter : e.op = .feistel → iter = e.iter) :
    PhaseInv { e with
      w := feistelRound P.roundF e.w e.lb e.rb e.k, round := round, iter := iter } where
  mixing_op := h.mixing_op
  ident_op := h.ident_op
  rounds_op := h.rounds_op
  feistel_rounds := by
    intro _ ho
    obtain ⟨hlb, hrb, hsum, hi⟩ := h.feistel_rounds hf ho
    exact ⟨hlb, hrb, hsum, (hiter ho).trans hi⟩
  fpe_rounds := by
    intro _ ho
    obtain ⟨hle, hsum, hn, hx, -⟩ := h.fpe_rounds hf ho
    exact ⟨hle, hsum, hn, hx, feistelRound_lt _ _ _ (hsum.trans_le (clog2_le_64 e.n))⟩

theorem EngineEffect.inv {P : Params} {s t : State} (ht : EngineEffect P s t) (h : Inv s) : Inv t := by
  have hrange (hrun : s.eng.fsm ≠ .idle) : InRange s := h.inRange (h.released_of_running hrun)
  cases ht with
  | idle => exact h
  | advanced hf hround hiter =>
    have hrun : s.eng.fsm ≠ .idle := by simp [hf]
    have hbusy := h.busy_of_running hrun
    have hs := h.running hbusy
    exact .of_running hrun ⟨hs.busy, hs.done, hs.err⟩ (h.no_error_while_busy hbusy).2
      { hrange hrun with round_le := hround } (h.phase.advance hf hiter)
  | completed hrun hround =>
    exact inv_completeOk _ _ { hrange hrun with round_le := hround.trans h.round_le }
  | exhausted hrun hround =>
    exact inv_completeError _ _ { hrange hrun with round_le := hround.trans h.round_le }

theorem inv_withAgenda {s : State} (h : Inv s) (evs : List Event) : Inv (s.withAgenda evs) :=
  h.of_same_engine rfl rfl rfl id id h.reset_held

theorem writeReg_eng (r : Reg) (v : Word) (s : State) : (writeReg r v s).eng = s.eng := by
  cases r <;> rfl

theorem writeReg_bus (r : Reg) (v : Word) (s : State) : (writeReg r v s).bus = s.bus := by
  cases r <;> rfl

/-- Of STATUS a register write changes nothing but what an acknowledgement does (R28). -/
theorem writeReg_status (r : Reg) (v : Word) (s : State) :
    (writeReg r v s).regs.status =
      if r = .status then statusAfterWrite v s.regs.status else s.regs.status := by
  cases r <;> rfl

theorem inv_writeReg {s : State} (h : Inv s) (hr : s.bus.resetIn = false) (r : Reg) (v : Word) :
    Inv (writeReg r v s) := by
  refine h.of_same_engine (writeReg_eng r v s) ?_ ?_ ?_ ?_ (by simp [writeReg_bus, hr]) <;>
    rw [writeReg_status] <;> split <;> simp [statusAfterWrite] <;> tauto

/-- Settles O55: `EngineEffect.inv` for the engine; an idle engine completes or starts within the
ranges; the host changes no more than STATUS's clearable bits. -/
theorem everyStepKeepsInv : Obligations.EveryStepKeepsInv := by
  unfold Obligations.EveryStepKeepsInv
  intro P s t h hstep
  cases stepWith_effect hstep with
  | engine => exact (engineStep_effect P _).inv (inv_withAgenda h _)
  | reset => exact .of_reset rfl rfl
  | untouched hregs heng hreset =>
    refine h.of_same_engine heng (by rw [hregs]) (by rw [hregs]) (by rw [hregs]; exact id)
      (by rw [hregs]; exact id) ?_
    rw [hregs, heng]
    exact fun ht => h.reset_held (hreset ht)
  | @register r v evs hr => exact inv_writeReg (inv_withAgenda h evs) hr r v
  | lost hr => exact h.of_same_engine rfl rfl rfl id id (by simp [hr])
  | failed hr => exact inv_completeError _ _ ⟨h.round_le, h.lb_le, h.rb_le, hr⟩
  | started hr _ _ _ hstart => exact hstart.inv ⟨h.round_le, h.lb_le, h.rb_le, hr⟩

/-- Settles O56: the reset values are idle, and no block is in work. -/
theorem invAtReset : Obligations.InvAtReset := by
  unfold Obligations.InvAtReset
  have hidle : State.reset.eng.fsm = .idle := rfl
  exact ⟨.of_reset rfl rfl, fun P => ⟨by simp [hidle], by simp [hidle], by simp [hidle]⟩⟩

end Sys2Proof.Machine
end

/-! # The host-visible registers (10_state.md R22 to R33) -/

section
namespace Sys2Proof.Machine

/-! ## STATUS as a word -/

theorem flagWord_getLsbD (b : Bool) (j : Nat) : (flagWord b).getLsbD j = (decide (j = 0) && b) := by
  cases b <;> simp [flagWord, BitVec.getLsbD_one]

/-- A flag that STATUS shows at bit `k`. -/
theorem flagWord_shiftLeft_getLsbD (b : Bool) {k : Nat} (hk : k < 64) (j : Nat) :
    (flagWord b <<< k).getLsbD j = (decide (j = k) && b) := by
  rw [BitVec.getLsbD_shiftLeft, flagWord_getLsbD]
  by_cases h : j = k
  · simp [h, hk]
  · have : j < k ∨ j - k ≠ 0 := by omega
    rcases this with h' | h' <;> simp [h, h']

/-- ERRCODE as STATUS shows it. -/
theorem errcode_shiftLeft_getLsbD (c : BitVec 4) (j : Nat) :
    (c.zeroExtend 64 <<< 8).getLsbD j = (decide (8 ≤ j ∧ j ≤ 11) && c.getLsbD (j - 8)) := by
  rw [BitVec.getLsbD_shiftLeft, BitVec.zeroExtend, BitVec.getLsbD_setWidth]
  by_cases h : 8 ≤ j ∧ j ≤ 11
  · have h64 : j < 64 := by omega
    have h64' : j - 8 < 64 := by omega
    simp [h, h64, h64']
  · have : j < 8 ∨ 4 ≤ j - 8 := by omega
    rcases this with h' | h'
    · simp [h, h']
    · simp [h, BitVec.getLsbD_of_ge c _ h']

/-- Settles O32: the fields lie at bits of their own. -/
theorem statusReadLayout : Obligations.StatusReadLayout := by
  unfold Obligations.StatusReadLayout
  intro st j
  have h1 := flagWord_shiftLeft_getLsbD st.done (k := 1) (by decide) j
  have h2 := flagWord_shiftLeft_getLsbD st.err (k := 2) (by decide) j
  have h3 := flagWord_shiftLeft_getLsbD st.ovr (k := 3) (by decide) j
  simp only [statusWord, BitVec.getLsbD_or, errcode_shiftLeft_getLsbD, flagWord_getLsbD, h1, h2, h3]
  by_cases hlow : j ≤ 3
  · interval_cases j <;> simp
  · have hj : j ≠ 0 ∧ j ≠ 1 ∧ j ≠ 2 ∧ j ≠ 3 := by omega
    by_cases hcode : 8 ≤ j ∧ j ≤ 11 <;> simp [hj, hcode]

/-! ## The window's slots -/

theorem readWindow_offset (x : Regs) (r : Reg) : readWindow x r.offset = readReg r x := by
  rw [readWindow, Reg.atOffset_eq_some.2 rfl]

theorem readWindow_reserved (x : Regs) {off : Nat} (h : Reg.atOffset off = none) :
    readWindow x off = 0 := by rw [readWindow, h]

/-- A slot reads the same when the register in it, if there is one, does. -/
theorem readWindow_congr {x y : Regs} {off : Nat}
    (h : ∀ r : Reg, off = r.offset → readReg r x = readReg r y) :
    readWindow x off = readWindow y off := by
  cases hr : Reg.atOffset off with
  | none => rw [readWindow_reserved x hr, readWindow_reserved y hr]
  | some r =>
    obtain rfl := Reg.atOffset_eq_some.1 hr
    rw [readWindow_offset, readWindow_offset, h r rfl]

/-- A byte of the window is unchanged when its slot is. -/
theorem windowByte_congr {x y : Regs} {a : Nat}
    (h : ∀ r : Reg, a / 8 * 8 = r.offset → readReg r x = readReg r y) :
    windowByte x a = windowByte y a := by
  rw [windowByte, windowByte, readWindow_congr h]

/-- A write to one register is not seen in another: the record fields differ. -/
theorem readReg_writeReg_ne {r r' : Reg} (h : r' ≠ r) (v : Word) (s : State) :
    readReg r' (writeReg r v s).regs = readReg r' s.regs := by
  cases r <;> cases r' <;> trivial

theorem readReg_writeReg_ctrl (v : Word) (s : State) :
    readReg .ctrl (writeReg .ctrl v s).regs = v &&& 1 := by
  apply BitVec.eq_of_getLsbD_eq
  intro j _
  show (flagWord (v.getLsbD 0)).getLsbD j = _
  rw [flagWord_getLsbD, BitVec.getLsbD_and]
  by_cases h : j = 0 <;> simp [h, BitVec.getLsbD_one]

/-- The reserved slots are the last ones (20_memory.md R53). -/
theorem Reg.le_of_atOffset_eq_none {off : Nat} (hal : off % 8 = 0) (h : Reg.atOffset off = none) :
    0x58 ≤ off := by
  obtain ⟨k, rfl⟩ := Nat.dvd_of_mod_eq_zero hal
  by_contra hlt
  have hk : k < 11 := by omega
  interval_cases k <;> cases h

/-- A write that the bus takes at 0x10 or above: to a register other than STATUS, or to a reserved slot. -/
theorem plainWrite_cases {off : Nat} {v : Word} {s t : State} (hoff : 0x10 ≤ off)
    (h : hostAccess (.write off 8 v) s = .next t) :
    off % 8 = 0 ∧
      ((∃ r : Reg, r ≠ .status ∧ off = r.offset ∧ t = writeReg r v s) ∨
       (Reg.atOffset off = none ∧ t = s)) := by
  obtain ⟨-, h⟩ | ⟨_, h, -⟩ | ⟨off', v', hw, hl, h⟩ := hostAccess_cases h
  · cases h
  · cases h
  · cases hw
    refine ⟨(legalAt_iff.1 hl).2.1, ?_⟩
    obtain ⟨rfl, -⟩ | ⟨r, -, rfl, hw⟩ | ⟨hr, hw⟩ := hostWrite_cases h.symm
    · exact absurd hoff (by decide)
    · cases hw
      exact .inl ⟨r, fun hs => absurd hoff (by rw [hs]; decide), rfl, rfl⟩
    · cases hw
      exact .inr ⟨hr, rfl⟩

/-- Settles O36: by the register in the slot, if there is one. -/
theorem writeChangesOneSlot : Obligations.WriteChangesOneSlot := by
  unfold Obligations.WriteChangesOneSlot
  intro off v s t hoff h
  obtain ⟨hal, ⟨r, hr, rfl, rfl⟩ | ⟨hnone, rfl⟩⟩ := plainWrite_cases hoff h
  · refine ⟨writeReg_eng r v s, writeReg_bus r v s, by rw [writeReg_status, if_neg hr], ?_, ?_⟩
    · intro a ha
      refine windowByte_congr fun r' hr' => readReg_writeReg_ne ?_ v s
      rintro rfl
      omega
    · rw [readWindow_offset, readWindow_offset]
      cases r with
      | cmd | status => simp [Reg.offset] at hoff
      | ctrl => simp [Reg.offset, readReg_writeReg_ctrl]
      | result | iter => simp [Reg.offset, writeReg]
      | x | n | key | keyLo | keyHi | walkLimit => simp [Reg.offset, readReg, writeReg]
  · have hlast := Reg.le_of_atOffset_eq_none hal hnone
    refine ⟨rfl, rfl, rfl, fun _ _ => rfl, fun hm => ?_, fun hm => ?_, fun _ => rfl,
      fun _ => readWindow_reserved _ hnone⟩
    · have : off ≤ 0x50 := by
        simp only [List.mem_cons, List.not_mem_nil, or_false] at hm
        omega
      omega
    · omega

/-! ## What an engine step leaves unchanged -/

theorem SameHostWritten.readReg_eq {x y : Regs} (h : SameHostWritten x y) {r : Reg}
    (hs : r ≠ .status) (hr : r ≠ .result) (hi : r ≠ .iter) :
    readReg r y = readReg r x := by
  obtain ⟨hie, hx, hn, hkey, hlo, hhi, hlimit⟩ := h
  cases r with
  | status | result | iter => contradiction
  | cmd => rfl
  | ctrl => simp [readReg, ctrlWord, hie]
  | x => exact hx
  | n => exact hn
  | key => exact hkey
  | keyLo => exact hlo
  | keyHi => exact hhi
  | walkLimit => exact hlimit

theorem EngineEffect.sameHostWritten {P : Params} {s t : State} (h : EngineEffect P s t) :
    SameHostWritten s.regs t.regs := by
  cases h <;> simp [SameHostWritten]

theorem EngineEffect.ovr {P : Params} {s t : State} (h : EngineEffect P s t) :
    t.regs.status.ovr = s.regs.status.ovr := by
  cases h <;> rfl

/-- Of the engine's own state a step writes the control state, the block, the round and ITER. -/
theorem EngineEffect.eng {P : Params} {s t : State} (h : EngineEffect P s t) :
    t.eng = { s.eng with fsm := t.eng.fsm, w := t.eng.w, round := t.eng.round, iter := t.eng.iter } := by
  cases h <;> rfl

/-- Settles O49: a byte outside the three slots belongs to a register that only the host writes. -/
theorem engineStepFrame : Obligations.EngineStepFrame := by
  unfold Obligations.EngineStepFrame
  intro P s
  have heffect := engineStep_effect P s
  have heng := heffect.eng
  refine ⟨heffect.sameHostWritten, heffect.ovr, engineStep_bus P s, ?_, ?_, ?_, ?_, ?_, ?_, ?_, ?_, ?_,
    ?_, engineStep_regs⟩
  case refine_10 =>
    intro a hstatus hresult
    refine windowByte_congr fun r hr => heffect.sameHostWritten.readReg_eq ?_ ?_ ?_ <;> rintro rfl <;>
      simp [Reg.offset] at hr <;> omega
  all_goals rw [heng]

end Sys2Proof.Machine
end

/-! # Who changes what (10_state.md R23 to R33) -/

section
namespace Sys2Proof.Machine

/-! ## OVR -/

theorem StepEffect.ovr_rises {P : Params} {s t : State} (h : StepEffect P s t)
    (hs : s.regs.status.ovr = false) (ht : t.regs.status.ovr = true) :
    ∃ v evs, s.bus.agenda = .access (.write 0x00 8 v) :: evs ∧ s.regs.status.busy = true := by
  cases h with
  | lost _ hev hbusy => exact ⟨_, _, hev, hbusy⟩
  | engine => simp [(engineStep_effect P _).ovr, hs] at ht
  | reset => cases ht
  | untouched hregs => simp [hregs, hs] at ht
  | register =>
    rw [writeReg_status] at ht
    split at ht <;> simp [statusAfterWrite, hs] at ht
  | failed => simp [hs] at ht
  | started _ _ _ _ hstart => simp [hstart.regs, hs] at ht

theorem StepEffect.ovr_falls {P : Params} {s t : State} (h : StepEffect P s t)
    (hs : s.regs.status.ovr = true) (ht : t.regs.status.ovr = false) :
    (∃ v evs, s.bus.agenda = .access (.write 0x08 8 v) :: evs ∧ v.getLsbD 3 = true) ∨
      ∃ evs, s.bus.agenda = .resetAssert :: evs := by
  cases h with
  | reset hev => exact .inr ⟨_, hev⟩
  | @register r v evs _ hev =>
    rw [writeReg_status] at ht
    split at ht
    · next hr =>
      subst hr
      exact .inl ⟨v, evs, hev, by simpa [statusAfterWrite, hs] using ht⟩
    · simp [hs] at ht
  | engine => simp [(engineStep_effect P _).ovr, hs] at ht
  | untouched hregs => simp [hregs, hs] at ht
  | lost => cases ht
  | failed => simp [hs] at ht
  | started _ _ _ _ hstart => simp [hstart.regs, hs] at ht

/-- Settles O37: the engine, acceptance and completion keep OVR. -/
theorem ovrIsSticky : Obligations.OvrIsSticky := by
  unfold Obligations.OvrIsSticky
  refine ⟨fun v s hb => ⟨_, command_busy v hb, rfl⟩, fun P s t hstep => ?_⟩
  have heffect := stepWith_effect hstep
  exact ⟨heffect.ovr_rises, heffect.ovr_falls⟩

/-! ## RESULT and ITER -/

theorem writeReg_result (r : Reg) (v : Word) (s : State) :
    (writeReg r v s).regs.result = s.regs.result := by cases r <;> rfl

theorem writeReg_iter (r : Reg) (v : Word) (s : State) :
    (writeReg r v s).regs.iter = s.regs.iter := by cases r <;> rfl

/-- RESULT is written by a completion without error alone (R105). -/
theorem EngineEffect.completes_of_result_ne {P : Params} {s t : State} (h : EngineEffect P s t)
    (hne : t.regs.result ≠ s.regs.result) :
    s.eng.fsm ≠ .idle ∧ t.eng.fsm = .idle ∧ t.regs.status.busy = false ∧
      t.regs.status.done = true ∧ t.regs.status.err = false ∧ t.regs.status.errcode = 0 := by
  cases h with
  | completed hrun => exact ⟨hrun, rfl, rfl, rfl, rfl, rfl⟩
  | idle | advanced | exhausted => exact absurd rfl hne

/-- ITER is written by either completion (R105, R106). -/
theorem EngineEffect.completes_of_iter_ne {P : Params} {s t : State} (h : EngineEffect P s t)
    (hne : t.regs.iter ≠ s.regs.iter) :
    s.eng.fsm ≠ .idle ∧ t.eng.fsm = .idle ∧ t.regs.status.busy = false ∧
      t.regs.status.done = true := by
  cases h with
  | completed hrun | exhausted hrun => exact ⟨hrun, rfl, rfl, rfl⟩
  | idle | advanced => exact absurd rfl hne

/-- Settles O38: only completions write them, and `completeError` leaves RESULT. -/
theorem resultAndIterChangeOnlyAtCompletion : Obligations.ResultAndIterChangeOnlyAtCompletion := by
  unfold Obligations.ResultAndIterChangeOnlyAtCompletion
  intro P s t hstep
  cases stepWith_effect hstep with
  | @engine evs hnext =>
    have heffect := engineStep_effect P (s.withAgenda evs)
    constructor <;> intro hne <;> right
    · obtain ⟨hrun, hdone⟩ := heffect.completes_of_result_ne hne
      exact ⟨hrun, hnext, hdone⟩
    · obtain ⟨hrun, hdone⟩ := heffect.completes_of_iter_ne hne
      exact ⟨.inl ⟨hrun, hnext⟩, hdone⟩
  | reset hev => exact ⟨fun _ => .inl ⟨_, hev⟩, fun _ => .inl ⟨_, hev⟩⟩
  | failed _ hev hidle hnop =>
    exact ⟨fun hne => absurd rfl hne,
      fun _ => .inr ⟨.inr ⟨_, _, hev, hidle, hnop, rfl, rfl⟩, rfl, rfl, rfl⟩⟩
  | untouched hregs => simp [hregs]
  | register => simp [writeReg_result, writeReg_iter]
  | lost => simp
  | started _ _ _ _ hstart => simp [hstart.regs]

/-! ## What only the host writes -/

theorem SameHostWritten.of_eq {x y : Regs} (h : y = x) : SameHostWritten x y := by
  subst h
  simp [SameHostWritten]

/-- Only reset and a register write of the host change what only the host writes. -/
theorem StepEffect.sameHostWritten_or {P : Params} {s t : State} (h : StepEffect P s t) :
    (∃ evs, s.bus.agenda = .resetAssert :: evs) ∨ SameHostWritten s.regs t.regs ∨
      ∃ r v evs, s.bus.agenda = .access (.write (Reg.offset r) 8 v) :: evs ∧
        t = writeReg r v (s.withAgenda evs) := by
  cases h with
  | engine => exact .inr (.inl (engineStep_effect P _).sameHostWritten)
  | reset hev => exact .inl ⟨_, hev⟩
  | untouched hregs => exact .inr (.inl (.of_eq hregs))
  | register _ hev => exact .inr (.inr ⟨_, _, _, hev, rfl⟩)
  | lost => exact .inr (.inl (by simp [SameHostWritten]))
  | failed => exact .inr (.inl (by simp [SameHostWritten]))
  | started _ _ _ _ hstart => exact .inr (.inl (by simp [SameHostWritten, hstart.regs]))

/-- Settles O39: by the register written. -/
theorem operandRegistersChangeOnlyByHost : Obligations.OperandRegistersChangeOnlyByHost := by
  unfold Obligations.OperandRegistersChangeOnlyByHost
  intro P s t hstep
  obtain h | h | ⟨r, v, evs, hev, rfl⟩ := (stepWith_effect hstep).sameHostWritten_or
  · exact .inl h
  · obtain ⟨hie, hx, hn, hkey, hlo, hhi, hlimit⟩ := h
    exact .inr ⟨.inl hx, .inl hn, .inl hkey, .inl hlo, .inl hhi, .inl hlimit, .inl hie⟩
  · right
    cases r <;> simp [writeReg, hev, Reg.offset]

/-! ## BUSY -/

theorem EngineEffect.not_busy {P : Params} {s t : State} (h : EngineEffect P s t)
    (hb : s.regs.status.busy = false) : t.regs.status.busy = false := by
  cases h with
  | idle | advanced => exact hb
  | completed | exhausted => rfl

theorem writeReg_busy (r : Reg) (v : Word) (s : State) :
    (writeReg r v s).regs.status.busy = s.regs.status.busy := by cases r <;> rfl

/-- BUSY rises only when a command starts. -/
theorem StepEffect.busy_rises {P : Params} {s t : State} (h : StepEffect P s t)
    (hs : s.regs.status.busy = false) (ht : t.regs.status.busy = true) :
    ∃ v evs i, s.bus.agenda = .access (.write 0x00 8 v) :: evs ∧ decode v = .ok i ∧ i ≠ .nop ∧
      t.eng.fsm ≠ .idle := by
  cases h with
  | started _ hev _ hdecode hstart =>
    exact ⟨_, _, _, hev, hdecode, hstart.ne_nop, hstart.fsm_ne_idle⟩
  | @engine evs => simp [(engineStep_effect P (s.withAgenda evs)).not_busy hs] at ht
  | reset => cases ht
  | untouched hregs => simp [hregs, hs] at ht
  | register => simp [writeReg_busy, hs] at ht
  | lost => simp [hs] at ht
  | failed => cases ht

/-- BUSY falls only in the engine's step or at reset. -/
theorem StepEffect.busy_falls {P : Params} {s t : State} (h : StepEffect P s t)
    (hs : s.regs.status.busy = true) (ht : t.regs.status.busy = false) :
    EngineNext s ∨ ∃ evs, s.bus.agenda = .resetAssert :: evs := by
  cases h with
  | engine hnext => exact .inl hnext
  | reset hev => exact .inr ⟨_, hev⟩
  | untouched hregs => simp [hregs, hs] at ht
  | register => simp [writeReg_busy, hs] at ht
  | lost => simp [hs] at ht
  | failed _ _ hidle => simp [hidle] at hs
  | started _ _ hidle => simp [hidle] at hs

/-- Settles O40: the invariant before and after the step ties BUSY to the control state. -/
theorem busyRisesAtAcceptanceOnly : Obligations.BusyRisesAtAcceptanceOnly := by
  unfold Obligations.BusyRisesAtAcceptanceOnly
  intro P s t h hstep
  have ht : Inv t := everyStepKeepsInv P s t h hstep
  have heffect := stepWith_effect hstep
  constructor
  · intro hs hb
    obtain ⟨v, evs, i, hev, hdecode, hi, hrun⟩ := heffect.busy_rises hs hb
    exact ⟨v, evs, i, hev, hdecode, hi, h.idle_of_not_busy hs, hrun⟩
  · intro hs hb
    refine ⟨h.busy_iff_running.1 hs, ht.idle_of_not_busy hb, ?_⟩
    exact or_assoc.1 (heffect.busy_falls hs hb)

/-! ## Reset -/

theorem readReg_reset (r : Reg) : readReg r .reset = 0 := by
  cases r <;> decide

/-- Settles O50: the fields by computation, the window by its slots. -/
theorem resetValues : Obligations.ResetValues := by
  unfold Obligations.ResetValues
  refine ⟨rfl, rfl, rfl, rfl, rfl, rfl, rfl, rfl, rfl, rfl, rfl, rfl, rfl, rfl, rfl, rfl, rfl, rfl, rfl,
    rfl, rfl, rfl, rfl, rfl, fun off => ?_⟩
  cases hr : Reg.atOffset off with
  | none => exact readWindow_reserved _ hr
  | some r =>
    obtain rfl := Reg.atOffset_eq_some.1 hr
    rw [readWindow_offset]
    exact readReg_reset r

end Sys2Proof.Machine
end

/-! # The register window (20_memory.md R51 to R68) -/

section
namespace Sys2Proof.Machine

/-! ## Accesses that the bus takes, and those it refuses -/

theorem legalAt_eq_false_iff {off width : Nat} :
    legalAt off width = false ↔ width ≠ 8 ∨ off % 8 ≠ 0 ∨ 0x80 ≤ off := by
  rw [← Bool.not_eq_true, legalAt_iff]
  omega

theorem legalAt_offset (r : Reg) : legalAt r.offset 8 = true := by
  cases r <;> decide

/-- The reserved slots (R53). -/
theorem reserved_slot {off : Nat} (h : off ∈ [0x58, 0x60, 0x68, 0x70, 0x78]) :
    legalAt off 8 = true ∧ Reg.atOffset off = none := by
  revert off
  decide

theorem hostAccess_illegal {a : Access} (h : a.legal = false) (s : State) :
    hostAccess a s = .fault (.busError a) := by
  simp [hostAccess, h]

theorem hostAccess_read {off : Nat} (h : legalAt off 8 = true) (s : State) :
    hostAccess (.read off 8) s = .next (s.reply (readWindow s.regs off)) := by
  simp [hostAccess, Access.legal, h]

theorem hostAccess_write {off : Nat} (h : legalAt off 8 = true) (v : Word) (s : State) :
    hostAccess (.write off 8 v) s = hostWrite off v s := by
  simp [hostAccess, Access.legal, h]

/-! ## Reads -/

theorem hostAccess_readReg (r : Reg) (s : State) :
    hostAccess (.read r.offset 8) s = .next (s.reply (readReg r s.regs)) := by
  rw [hostAccess_read (legalAt_offset r), readWindow_offset]

/-- A read gives no other state than the one that has recorded the value. -/
theorem eq_reply_of_read {off width : Nat} {s t : State}
    (h : hostAccess (.read off width) s = .next t) : t = s.reply (readWindow s.regs off) := by
  obtain ⟨-, ht⟩ | ⟨_, ha, -, ht⟩ | ⟨_, _, ha, -⟩ := hostAccess_cases h
  · cases ht
  · cases ha
    cases ht
    rfl
  · cases ha

/-- Settles O31: by the register in the slot, if there is one. -/
theorem windowReads : Obligations.WindowReads := by
  unfold Obligations.WindowReads
  intro s
  refine ⟨fun off width h =>
      hostAccess_illegal (a := .read off width) (legalAt_eq_false_iff.2 h) s,
    hostAccess_readReg .cmd s, hostAccess_readReg .status s, hostAccess_readReg .ctrl s,
    hostAccess_readReg .x s, hostAccess_readReg .n s, hostAccess_readReg .key s,
    hostAccess_readReg .keyLo s, hostAccess_readReg .keyHi s, hostAccess_readReg .result s,
    hostAccess_readReg .iter s, hostAccess_readReg .walkLimit s, fun off h => ?_,
    fun v => ⟨reply_regs s v, reply_eng s v, reply_bus s v⟩⟩
  obtain ⟨hlegal, hnone⟩ := reserved_slot h
  rw [hostAccess_read hlegal, readWindow_reserved _ hnone]

/-- Settles O35: the lane `off + i` is lane `i` of the slot at `off`. -/
theorem byteLanesAreLittleEndian : Obligations.ByteLanesAreLittleEndian := by
  unfold Obligations.ByteLanesAreLittleEndian
  intro r off i j hal _ hi hj
  have hslot : (off + i) / 8 * 8 = off := by omega
  have hlane : (off + i) % 8 * 8 = 8 * i := by omega
  have hbit : j < 8 := by omega
  simp [windowByte, hslot, hlane, hbit]

/-! ## Writes -/

theorem hostAccess_writeReg {r : Reg} (hr : r ≠ .cmd) (v : Word) (s : State) :
    hostAccess (.write r.offset 8 v) s = .next (writeReg r v s) := by
  rw [hostAccess_write (legalAt_offset r)]
  cases r with
  | cmd => contradiction
  | _ => rfl

theorem hostAccess_writeReserved {off : Nat} (hlegal : legalAt off 8 = true)
    (hnone : Reg.atOffset off = none) (v : Word) (s : State) :
    hostAccess (.write off 8 v) s = .next s := by
  rw [hostAccess_write hlegal, hostWrite, hnone]

/-- Write-1-to-clear of one flag (10_state.md R28). -/
theorem and_not_eq_ite (flag bit : Bool) : (flag && !bit) = if bit then false else flag := by
  cases bit <;> simp

/-- Settles O33: by the register in the slot, if there is one. -/
theorem windowWrites : Obligations.WindowWrites := by
  unfold Obligations.WindowWrites
  intro s v
  have hreg {r : Reg} (hr : r ≠ .cmd) := hostAccess_writeReg hr v s
  refine ⟨fun off width h =>
      hostAccess_illegal (a := .write off width v) (legalAt_eq_false_iff.2 h) s,
    hostAccess_write (legalAt_offset .cmd) v s, ?status, hreg (r := .ctrl) nofun,
    hreg (r := .x) nofun, hreg (r := .n) nofun, hreg (r := .key) nofun, hreg (r := .keyLo) nofun,
    hreg (r := .keyHi) nofun, hreg (r := .walkLimit) nofun, ?noEffect⟩
  case status =>
    simp only [← and_not_eq_ite]
    exact hreg (r := .status) nofun
  case noEffect =>
    refine List.forall_mem_cons.2 ⟨hreg (r := .result) nofun,
      List.forall_mem_cons.2 ⟨hreg (r := .iter) nofun, fun off h => ?_⟩⟩
    obtain ⟨hlegal, hnone⟩ := reserved_slot h
    exact hostAccess_writeReserved hlegal hnone v s

theorem statusAfterWrite_idem (v : Word) (st : Status) :
    statusAfterWrite v (statusAfterWrite v st) = statusAfterWrite v st := by
  simp [statusAfterWrite]

theorem writeReg_idem (r : Reg) (v : Word) (s : State) :
    writeReg r v (writeReg r v s) = writeReg r v s := by
  cases r with
  | status => simp [writeReg, statusWrite, State.withStatus, statusAfterWrite_idem]
  | _ => rfl

/-- A write to any slot but CMD's: the register in it, if there is one, takes the value again. -/
theorem hostAccess_write_idem {off : Nat} {v : Word} {s t : State} (hoff : off ≠ Reg.cmd.offset)
    (h : hostAccess (.write off 8 v) s = .next t) : hostAccess (.write off 8 v) t = .next t := by
  obtain ⟨-, ht⟩ | ⟨_, ha, -⟩ | ⟨_, _, ha, hlegal, ht⟩ := hostAccess_cases h
  · cases ht
  · cases ha
  · cases ha
    obtain ⟨hcmd, -⟩ | ⟨r, hr, rfl, hw⟩ | ⟨hnone, hw⟩ := hostWrite_cases ht.symm
    · contradiction
    · cases hw
      rw [hostAccess_writeReg hr, writeReg_idem]
    · exact hostAccess_writeReserved hlegal hnone v t

/-- The word of MIX, written twice: the first starts the command, the second is lost and sets OVR. -/
theorem cmdWrite_not_idem : ∃ (v : Word) (s t u : State),
    hostAccess (.write 0x00 8 v) s = .next t ∧ hostAccess (.write 0x00 8 v) t = .next u ∧ u ≠ t :=
  ⟨0x1, State.reset, acceptMix (accept State.reset), lostCommand (acceptMix (accept State.reset)),
    rfl, rfl, by decide⟩

/-- Settles O34: a register takes the same value again, and a cleared bit stays clear; two CMD writes of
MIX are the counterexample. -/
theorem writesAreIdempotent : Obligations.WritesAreIdempotent := by
  unfold Obligations.WritesAreIdempotent
  refine ⟨fun off s t h => ?_, fun _ _ _ _ => hostAccess_write_idem, cmdWrite_not_idem⟩
  obtain rfl := eq_reply_of_read h
  exact ⟨reply_regs s _, reply_eng s _⟩

/-! ## STATUS written back -/

theorem statusWord_done (st : Status) : (statusWord st).getLsbD 1 = st.done := statusReadLayout st 1

theorem statusWord_err (st : Status) : (statusWord st).getLsbD 2 = st.err := statusReadLayout st 2

theorem statusWord_ovr (st : Status) : (statusWord st).getLsbD 3 = st.ovr := statusReadLayout st 3

/-- Settles O44: the word read has a 0 at each bit that was not set then, and a 0 clears nothing. -/
theorem writeBackKeepsLaterBits : Obligations.WriteBackKeepsLaterBits := by
  unfold Obligations.WriteBackKeepsLaterBits
  intro read now
  simp only [statusAfterWrite, statusWord_done, statusWord_err, statusWord_ovr]
  have keeps {flag bit : Bool} (hflag : flag = true) (hbit : bit = false) : (flag && !bit) = true := by
    rw [hflag, hbit]
    rfl
  exact ⟨keeps, keeps, keeps⟩

end Sys2Proof.Machine
end

/-! # The engine's turn (20_memory.md R64, 60_exceptions.md R219) -/

section
namespace Sys2Proof.Machine

theorem stepWith_engine {P : Params} {s : State} {evs : List Event}
    (h : s.bus.agenda = .engine :: evs) :
    stepWith P s = .next (engineStep P (s.withAgenda evs)) := by
  simp only [stepWith, runNext, h, runEvent]

theorem stepWith_nil {P : Params} {s : State} (h : s.bus.agenda = []) :
    stepWith P s = .next (engineStep P s) := by
  simp only [stepWith, runNext, h]

theorem engineStep_idle {P : Params} {s : State} (h : s.eng.fsm = .idle) : engineStep P s = s := by
  simp only [engineStep, h]

/-- Settles O54: each clause is one branch of the step. -/
theorem engineTurnStepsEngine : Obligations.EngineTurnStepsEngine := by
  unfold Obligations.EngineTurnStepsEngine
  exact fun P s => ⟨fun _ => stepWith_engine, stepWith_nil, engineStep_idle⟩

end Sys2Proof.Machine
end

/-! # The command words (30_encoding.md R80 to R92) -/

section
namespace Sys2Proof

open Machine

/-! ## The fields of a word -/

/-- A bit field of a word as an integer. -/
theorem extractLsb'_toNat_eq (v : Word) (start len : Nat) :
    (v.extractLsb' start len).toNat = v.toNat / 2 ^ start % 2 ^ len := by
  rw [BitVec.extractLsb'_toNat, Nat.shiftRight_eq_div_pow]

theorem opField_eq (v : Word) : opField v = v.toNat % 2 ^ 4 := by
  rw [opField, extractLsb'_toNat_eq, Nat.pow_zero, Nat.div_one]

theorem lbField_eq (v : Word) : lbField v = v.toNat / 2 ^ 8 % 2 ^ 7 := extractLsb'_toNat_eq v 8 7

theorem rbField_eq (v : Word) : rbField v = v.toNat / 2 ^ 16 % 2 ^ 7 := extractLsb'_toNat_eq v 16 7

/-- A field is zero when its integer is. -/
theorem extractLsb'_eq_zero_iff (v : Word) (start len : Nat) :
    v.extractLsb' start len = 0 ↔ v.toNat / 2 ^ start % 2 ^ len = 0 := by
  rw [← extractLsb'_toNat_eq, ← BitVec.toNat_inj]
  rfl

/-- A word without reserved bits is the sum of its three fields (R80, R83). -/
theorem toNat_eq_of_not_reservedSet {v : Word} (h : reservedSet v = false) :
    v.toNat = opField v + lbField v * 2 ^ 8 + rbField v * 2 ^ 16 := by
  have hbits : (v.extractLsb' 4 4 = 0 ∧ v.getLsbD 15 = false) ∧ v.extractLsb' 23 41 = 0 := by
    simpa [reservedSet] using h
  rw [extractLsb'_eq_zero_iff, extractLsb'_eq_zero_iff, BitVec.getLsbD,
    Nat.testBit_eq_decide_div_mod_eq, decide_eq_false_iff_not] at hbits
  rw [opField_eq, lbField_eq, rbField_eq]
  have := v.isLt
  omega

/-! ## The decoder and the encoder -/

/-- The opcode of a command (R84). -/
def Instr.opcode : Instr → Nat
  | .nop => 0
  | .mix => 1
  | .feistel _ _ => 2
  | .fpe => 3

/-- LB and RB of a command's word: 0 where the command takes none (R84). -/
def Instr.widths : Instr → Nat × Nat
  | .feistel lb rb => (lb, rb)
  | .nop | .mix | .fpe => (0, 0)

theorem Instr.opcode_lt (i : Instr) : i.opcode < 4 := by
  cases i <;> simp [Instr.opcode]

theorem Instr.wf_iff (i : Instr) : i.wf = true ↔ i.widths.1 < 128 ∧ i.widths.2 < 128 := by
  cases i <;> simp [Instr.wf, Instr.widths]

theorem withoutWidths_eq_ok {v : Word} {i j : Instr} :
    withoutWidths v i = .ok j ↔ i = j ∧ lbField v = 0 ∧ rbField v = 0 := by
  unfold withoutWidths
  split <;> simp [*]

/-- The decoder takes a word without reserved bits for the command with its opcode and its widths. -/
theorem decode_eq_ok_iff {v : Word} {i : Instr} :
    decode v = .ok i ↔ reservedSet v = false ∧
      opField v = i.opcode ∧ lbField v = i.widths.1 ∧ rbField v = i.widths.2 := by
  unfold decode
  split
  · next h => simp [h]
  · next h =>
    split
    case h_5 hnop hmix hfeistel hfpe =>
      have hop : opField v ≠ i.opcode := by cases i <;> assumption
      simp [hop]
    all_goals cases i <;> simp [withoutWidths_eq_ok, Instr.opcode, Instr.widths, *]

theorem encode_reservedSet {i : Instr} (h : i.wf = true) : reservedSet (encode i) = false := by
  cases i with
  | nop => exact Laws.EncodeReserved.nop h
  | mix => exact Laws.EncodeReserved.mix h
  | feistel lb rb => exact Laws.EncodeReserved.feistel lb rb h
  | fpe => exact Laws.EncodeReserved.fpe h

theorem encode_toNat {i : Instr} (h : i.wf = true) :
    (encode i).toNat = i.opcode + i.widths.1 * 2 ^ 8 + i.widths.2 * 2 ^ 16 := by
  obtain ⟨hlb, hrb⟩ := i.wf_iff.1 h
  cases i with
  | feistel lb rb => exact Laws.EncodeReserved.feistel_toNat hlb hrb
  | nop | mix | fpe => rfl

/-- The decoder inverts the encoder, and takes no other word. -/
theorem decode_eq_ok_iff_encode {v : Word} {i : Instr} :
    decode v = .ok i ↔ i.wf = true ∧ v = encode i := by
  rw [decode_eq_ok_iff]
  constructor
  · rintro ⟨hres, hop, hlb, hrb⟩
    have hwf : i.wf = true := by
      rw [Instr.wf_iff, ← hlb, ← hrb, lbField_eq, rbField_eq]
      omega
    refine ⟨hwf, BitVec.eq_of_toNat_eq ?_⟩
    rw [toNat_eq_of_not_reservedSet hres, encode_toNat hwf, hop, hlb, hrb]
  · rintro ⟨hwf, rfl⟩
    have hop := i.opcode_lt
    have hwidths := i.wf_iff.1 hwf
    rw [opField_eq, lbField_eq, rbField_eq, encode_toNat hwf]
    refine ⟨encode_reservedSet hwf, ?_, ?_, ?_⟩ <;> omega

/-- Settles O1: `decode_eq_ok_iff_encode`, at the encoder's own word. -/
theorem decodeEncodeRoundTrip : Obligations.DecodeEncodeRoundTrip := by
  unfold Obligations.DecodeEncodeRoundTrip
  exact fun i hwf => decode_eq_ok_iff_encode.2 ⟨hwf, rfl⟩

/-! ## The legal words -/

/-- The well-formed commands and their words, as R85 lists them. -/
theorem wf_and_eq_encode_iff {v : Word} {i : Instr} :
    i.wf = true ∧ v = encode i ↔
      (v = 0x0 ∧ i = .nop) ∨ (v = 0x1 ∧ i = .mix) ∨ (v = 0x3 ∧ i = .fpe) ∨
      ∃ lb rb : Nat, lb ≤ 127 ∧ rb ≤ 127 ∧ i = .feistel lb rb ∧
        v = 0x2 ||| (BitVec.ofNat 64 lb <<< 8) ||| (BitVec.ofNat 64 rb <<< 16) := by
  have hnop : encode .nop = 0x0 := rfl
  have hmix : encode .mix = 0x1 := rfl
  have hfpe : encode .fpe = 0x3 := rfl
  cases i with
  | nop => simp [Instr.wf, hnop]
  | mix => simp [Instr.wf, hmix]
  | fpe => simp [Instr.wf, hfpe]
  | feistel lb rb =>
    have hfield (b : Nat) : b < 128 ↔ b ≤ 127 := Nat.lt_succ_iff
    simp [Instr.wf, encode, commandWord, hfield, and_assoc]

/-- The well-formed commands: three without widths and 128 times 128 with. -/
theorem ncard_wf : Set.ncard {i : Instr | i.wf = true} = 16387 := by
  have hset : {i : Instr | i.wf = true} = insert .nop (insert .mix (insert .fpe
      ((fun w : Nat × Nat => Instr.feistel w.1 w.2) '' (Set.Iio 128 ×ˢ Set.Iio 128)))) := by
    ext i
    cases i <;> simp [Instr.wf]
  have hinj : Function.Injective fun w : Nat × Nat => Instr.feistel w.1 w.2 := by
    rintro ⟨lb, rb⟩ ⟨lb', rb'⟩ h
    simpa using h
  rw [hset, Set.ncard_insert_of_notMem, Set.ncard_insert_of_notMem, Set.ncard_insert_of_notMem,
    Set.ncard_image_of_injective _ hinj, Set.ncard_prod] <;> simp

theorem encode_injOn : Set.InjOn encode {i : Instr | i.wf = true} := by
  intro i hi j hj h
  have hdec := decode_eq_ok_iff_encode.2 ⟨hi, rfl⟩
  rw [h, decode_eq_ok_iff_encode.2 ⟨hj, rfl⟩] at hdec
  exact (Except.ok.inj hdec).symm

/-- Settles O2: a word decodes exactly when it is the encoder's, and the encoder is injective. -/
theorem legalWordsExactly : Obligations.LegalWordsExactly := by
  unfold Obligations.LegalWordsExactly
  refine ⟨fun v i => decode_eq_ok_iff_encode.trans wf_and_eq_encode_iff, ?_⟩
  have himage : {v : Word | ∃ i, decode v = .ok i} = encode '' {i : Instr | i.wf = true} := by
    ext v
    exact exists_congr fun i => decode_eq_ok_iff_encode.trans (and_congr_right' eq_comm)
  rw [himage, encode_injOn.ncard_image, ncard_wf]

/-- Settles O3: the words by computation; BAD_WIDTH by the acceptance of FEISTEL 0, 1. -/
theorem exampleWordsDecode : Obligations.ExampleWordsDecode := by
  unfold Obligations.ExampleWordsDecode
  refine ⟨by decide, by decide, by decide, by decide, by decide, by decide, by decide, by decide,
    by decide, by decide, by decide, by decide, by decide, by decide, by decide, by decide, by decide,
    by decide, fun s hs => ?_, ⟨.reservedOpcode, by decide⟩, ⟨.reservedBit, by decide⟩,
    ⟨.widthNotZero, by decide⟩, ⟨.reservedBit, by decide⟩⟩
  have hdec : decode 0x0000000000010002 = .ok (.feistel 0 1) := by decide
  exact ⟨_, by rw [command_legal s hdec, exec_eq, present_idle hs], rfl, rfl⟩

end Sys2Proof
end

/-! # The outcome of a command (40_command.md R105, R106, 42_feistel.md R144, 41_mix.md R124) -/

section
namespace Sys2Proof.Machine

/-- The command `i`, presented to an idle engine in `s`, has ended with the outcome `o` after `m` engine
turns: for MIX and FEISTEL the outcome is `ok` with ITER 0, for FPE it is FPEWALK's. -/
structure HasOutcome (P : Params) (i : Instr) (s : State) (m : Nat) (o : WalkOutcome) : Prop where
  regs : (engineSteps P m (actOf i s)).regs = outcomeRegs s.regs o
  idle : (engineSteps P m (actOf i s)).eng.fsm = .idle

/-- Of STATUS an outcome keeps OVR alone. -/
theorem outcomeRegs_withStatus (r : Regs) {st : Status} (h : st.ovr = r.status.ovr) (o : WalkOutcome) :
    outcomeRegs { r with status := st } o = outcomeRegs r o := by
  cases o <;> simp [outcomeRegs, h]

/-- An idle engine stays as it is however often it is its turn (60_exceptions.md R219). -/
theorem engineSteps_idle {P : Params} {s : State} (h : s.eng.fsm = .idle) (m : Nat) :
    engineSteps P m s = s := by
  induction m with
  | zero => rfl
  | succ m ih => rw [engineSteps, engineStep_idle h, ih]

/-- Turns after the command's end change nothing. -/
theorem HasOutcome.regs_of_le {P : Params} {i : Instr} {s : State} {m l : Nat} {o : WalkOutcome}
    (h : HasOutcome P i s m o) (hl : m ≤ l) :
    (engineSteps P l (actOf i s)).regs = outcomeRegs s.regs o := by
  obtain ⟨extra, rfl⟩ := Nat.exists_eq_add_of_le hl
  rw [engineSteps_add, engineSteps_idle h.idle, h.regs]

theorem mix_hasOutcome (P : Params) (s : State) :
    HasOutcome P .mix s 1 (.ok (P.mix s.regs.keyLo s.regs.keyHi s.regs.x) 0) :=
  ⟨rfl, rfl⟩

/-! ## Rounds -/

theorem engineStep_rounds {P : Params} {s : State} (hf : s.eng.fsm = .rounds) :
    engineStep P s = stepRound P s := by
  simp only [engineStep, hf]

/-- Up to the third round of an application each step is one round. -/
theorem engineSteps_early (P : Params) {s : State} (hf : s.eng.fsm = .rounds) {m : Nat}
    (hm : s.eng.round + m ≤ 3) :
    engineSteps P m s = s.withEng { s.eng with
      w := feistelRounds P.roundF s.eng.lb s.eng.rb s.eng.k m s.eng.w, round := s.eng.round + m } := by
  induction m with
  | zero => rfl
  | succ m ih =>
    rw [engineSteps_succ, ih (by omega), engineStep_rounds (by exact hf),
      stepRound_early (by exact hm), feistelRounds_add _ _ _ _ m 1]
    rfl

/-- The state after a whole application of FEISTEL4, before the command looks at the block. -/
def applied (P : Params) (s : State) : State :=
  s.withEng { s.eng with
    w := feistel4 P.roundF s.eng.w s.eng.lb s.eng.rb s.eng.k, round := 0, iter := s.eng.iter + 1 }

/-- The fourth round comes to the application's value, whatever the command then does with it (R146). -/
theorem engineSteps_four (P : Params) {s : State} (hf : s.eng.fsm = .rounds) (hr : s.eng.round = 0) :
    engineSteps P 4 s =
      if s.eng.op = .feistel then completeOk (applied P s).eng.w 0 (applied P s)
      else walkCheck (applied P s) := by
  rw [engineSteps_succ, engineSteps_early P hf (by omega), engineStep_rounds (by exact hf)]
  split
  · next ho => exact stepRound_feistel (by simp) ho
  · next ho => exact stepRound_walk (by simp) ho

theorem feistel_hasOutcome (P : Params) (s : State) {lb rb : Nat}
    (h : 1 ≤ lb ∧ 1 ≤ rb ∧ lb + rb ≤ 64) :
    HasOutcome P (.feistel lb rb) s 4 (.ok (feistel4 P.roundF s.regs.x lb rb s.regs.key) 0) := by
  have hact : actOf (.feistel lb rb) s =
      startRunning .feistel .rounds (loadRounds lb rb (accept s)) := by
    simp [actOf, acceptFeistel, widthsLegal, h]
  constructor <;> rw [hact, engineSteps_four P rfl rfl] <;> rfl

end Sys2Proof.Machine
end

/-! # The host's transactions (30_encoding.md R90, R91) -/

section
namespace Sys2Proof.Machine

/-! ## One event of the agenda after another -/

theorem runWith_step {P : Params} {s t : State} (h : stepWith P s = .next t) (m : Nat) :
    runWith P (m + 1) s = runWith P m t := by
  rw [Nat.add_comm, runWith_add (runWith_one h)]

theorem stepWith_wr {P : Params} {s : State} {r : Reg} {v : Word} {evs : List Event}
    (hr : s.bus.resetIn = false) (hcmd : r ≠ .cmd) (ha : s.bus.agenda = wr r v :: evs) :
    stepWith P s = .next (writeReg r v (s.withAgenda evs)) := by
  rw [stepWith_access hr ha, hostAccess_writeReg hcmd]

theorem stepWith_rd {P : Params} {s : State} {r : Reg} {evs : List Event}
    (hr : s.bus.resetIn = false) (ha : s.bus.agenda = rd r :: evs) :
    stepWith P s = .next ((s.withAgenda evs).reply (readReg r s.regs)) := by
  rw [stepWith_access hr ha, hostAccess_readReg, withAgenda_regs]

/-- The CMD write of a well-formed command on an idle engine. -/
theorem stepWith_command {P : Params} {s : State} {i : Instr} {evs : List Event} (hwf : i.wf = true)
    (hb : s.regs.status.busy = false) (hr : s.bus.resetIn = false)
    (ha : s.bus.agenda = wr .cmd (encode i) :: evs) :
    stepWith P s = .next (actOf i (s.withAgenda evs)) := by
  rw [stepWith_access hr ha, hostAccess_write (legalAt_offset .cmd)]
  show command _ _ = _
  rw [command_legal _ (decodeEncodeRoundTrip i hwf), exec_eq, present_idle (by exact hb)]

/-! ## Register writes -/

/-- The state after the plain writes `ws`, in order. -/
def writeRegs (ws : List (Reg × Word)) (s : State) : State :=
  ws.foldl (fun s w => writeReg w.1 w.2 s) s

theorem writeRegs_cons (w : Reg × Word) (ws : List (Reg × Word)) (s : State) :
    writeRegs (w :: ws) s = writeRegs ws (writeReg w.1 w.2 s) := rfl

theorem writeRegs_busy (ws : List (Reg × Word)) (s : State) :
    (writeRegs ws s).regs.status.busy = s.regs.status.busy := by
  induction ws generalizing s with
  | nil => rfl
  | cons w ws ih => exact (ih _).trans (writeReg_busy _ _ _)

theorem writeRegs_bus (ws : List (Reg × Word)) (s : State) : (writeRegs ws s).bus = s.bus := by
  induction ws generalizing s with
  | nil => rfl
  | cons w ws ih => exact (ih _).trans (writeReg_bus _ _ _)

theorem writeReg_withAgenda (r : Reg) (v : Word) (s : State) (evs : List Event) :
    writeReg r v (s.withAgenda evs) = (writeReg r v s).withAgenda evs := by
  cases r <;> rfl

theorem writeRegs_withAgenda (ws : List (Reg × Word)) (s : State) (evs : List Event) :
    writeRegs ws (s.withAgenda evs) = (writeRegs ws s).withAgenda evs := by
  induction ws generalizing s with
  | nil => rfl
  | cons w ws ih => rw [writeRegs_cons, writeReg_withAgenda, ih, writeRegs_cons]

theorem runWith_writes (P : Params) {ws : List (Reg × Word)} {s : State} {evs : List Event}
    (hr : s.bus.resetIn = false) (hcmd : ∀ w ∈ ws, w.1 ≠ .cmd)
    (ha : s.bus.agenda = ws.map (fun w => wr w.1 w.2) ++ evs) :
    runWith P ws.length s = .next ((writeRegs ws s).withAgenda evs) := by
  induction ws generalizing s with
  | nil =>
    obtain rfl : s.bus.agenda = evs := ha
    rfl
  | cons w ws ih =>
    obtain ⟨hw, hws⟩ := List.forall_mem_cons.1 hcmd
    rw [List.length_cons, runWith_step (stepWith_wr hr hw ha), writeReg_withAgenda, ih _ hws rfl,
      writeRegs_withAgenda, ← writeRegs_cons]
    · rfl
    · rw [withAgenda_bus, writeReg_bus]
      exact hr

/-! ## Engine turns and reads -/

/-- Replace the model's record of the pins. -/
def State.withBus (s : State) (b : Bus) : State := { s with bus := b }

@[simp] theorem withBus_regs (s : State) (b : Bus) : (s.withBus b).regs = s.regs := rfl
@[simp] theorem withBus_eng (s : State) (b : Bus) : (s.withBus b).eng = s.eng := rfl
@[simp] theorem withBus_bus (s : State) (b : Bus) : (s.withBus b).bus = b := rfl

theorem walkCheck_withBus (s : State) (b : Bus) :
    walkCheck (s.withBus b) = (walkCheck s).withBus b := by
  rw [walkCheck, walkCheck, apply_ite (State.withBus · b), apply_ite (State.withBus · b)]
  rfl

theorem stepRound_withBus (P : Params) (s : State) (b : Bus) :
    stepRound P (s.withBus b) = (stepRound P s).withBus b := by
  rw [stepRound, stepRound, apply_ite (State.withBus · b), apply_ite (State.withBus · b),
    ← walkCheck_withBus]
  rfl

/-- The engine looks at no part of the bus. -/
theorem engineStep_withBus (P : Params) (s : State) (b : Bus) :
    engineStep P (s.withBus b) = (engineStep P s).withBus b := by
  simp only [engineStep, withBus_eng]
  split
  · rfl
  · rfl
  · exact stepRound_withBus P s b
  · rfl

theorem engineSteps_withBus (P : Params) (m : Nat) (s : State) (b : Bus) :
    engineSteps P m (s.withBus b) = (engineSteps P m s).withBus b := by
  induction m generalizing s with
  | zero => rfl
  | succ m ih => rw [engineSteps, engineStep_withBus, ih, engineSteps]

/-- An event that moves nothing but the engine: its turn, or a read of a register. -/
def Event.Observes (ev : Event) : Prop := ev = .engine ∨ ∃ r, ev = rd r

/-- One such event: the engine's steps are those of its turns, and a read leaves its value. -/
theorem stepWith_observing (P : Params) {ev : Event} {evs : List Event} {s : State}
    (hr : s.bus.resetIn = false) (hobs : ev.Observes) (ha : s.bus.agenda = ev :: evs) :
    ∃ reads, stepWith P s = .next
      ((engineSteps P (engineTurns [ev]) s).withBus { s.bus with agenda := evs, reads := reads }) := by
  obtain rfl | ⟨r, rfl⟩ := hobs
  · exact ⟨s.bus.reads, (stepWith_engine ha).trans
      (congrArg _ (engineStep_withBus P s { s.bus with agenda := evs }))⟩
  · exact ⟨readReg r s.regs :: s.bus.reads, stepWith_rd hr ha⟩

theorem runWith_observing (P : Params) {evs rest : List Event} {s : State}
    (hr : s.bus.resetIn = false) (hobs : ∀ ev ∈ evs, Event.Observes ev)
    (ha : s.bus.agenda = evs ++ rest) :
    ∃ reads, runWith P evs.length s = .next
      ((engineSteps P (engineTurns evs) s).withBus { s.bus with agenda := rest, reads := reads }) := by
  induction evs generalizing s with
  | nil =>
    obtain rfl : s.bus.agenda = rest := ha
    exact ⟨s.bus.reads, rfl⟩
  | cons ev evs ih =>
    obtain ⟨hev, hevs⟩ := List.forall_mem_cons.1 hobs
    rw [List.cons_append] at ha
    obtain ⟨reads, hstep⟩ := stepWith_observing P hr hev ha
    obtain ⟨reads', hrun⟩ := ih (s := (engineSteps P (engineTurns [ev]) s).withBus
      { s.bus with agenda := evs ++ rest, reads := reads }) hr hevs rfl
    refine ⟨reads', ?_⟩
    rw [List.length_cons, runWith_step hstep, hrun, engineSteps_withBus, engineTurns_cons ev evs,
      engineSteps_add]
    rfl

/-- Reads in a row leave their values, the last one first. -/
theorem runWith_reads (P : Params) {rs : List Reg} {s : State} (hr : s.bus.resetIn = false)
    (ha : s.bus.agenda = rs.map rd) :
    runWith P rs.length s = .next (s.withBus { s.bus with
      agenda := [], reads := (rs.map (readReg · s.regs)).reverse ++ s.bus.reads }) := by
  induction rs generalizing s with
  | nil =>
    have ha : s.bus.agenda = [] := ha
    rw [← ha]
    rfl
  | cons r rs ih =>
    rw [List.length_cons, runWith_step (stepWith_rd hr ha), ih (by exact hr) rfl]
    simp [State.withBus]

/-! ## The wait -/

theorem engineTurns_poll (m : Nat) : engineTurns (poll m) = m := by
  simp [engineTurns, poll, rd]

theorem engineTurns_waitPolls (turns : List Nat) : engineTurns (waitPolls turns) = turns.sum := by
  rw [engineTurns, waitPolls, List.count_flatMap]
  exact congrArg List.sum (List.map_id'' engineTurns_poll turns)

theorem waitPolls_observes {turns : List Nat} {ev : Event} (h : ev ∈ waitPolls turns) :
    ev.Observes := by
  obtain ⟨m, -, hev⟩ := List.mem_flatMap.1 h
  rw [poll, List.mem_append, List.mem_replicate, List.mem_singleton] at hev
  exact hev.imp And.right fun hev => ⟨.status, hev⟩

/-- The last poll of a wait comes after all its engine turns. -/
theorem waitPolls_eq {turns : List Nat} (h : turns ≠ []) :
    ∃ evs, waitPolls turns = evs ++ [rd .status] := by
  obtain ⟨init, last, rfl⟩ := (List.eq_nil_or_concat' turns).resolve_left h
  exact ⟨waitPolls init ++ List.replicate last .engine, by simp [waitPolls, poll]⟩

/-- A wait and the reads behind it see the engine after all the turns of the wait. -/
theorem runWith_wait (P : Params) {s : State} {turns : List Nat} {rs : List Reg}
    (hr : s.bus.resetIn = false) (hne : turns ≠ []) (ha : s.bus.agenda = waitPolls turns ++ rs.map rd) :
    ∃ t earlier, runWith P ((waitPolls turns).length + rs.length) s = .next t ∧ t.bus.agenda = [] ∧
      t.bus.reads =
        ((.status :: rs).map (readReg · (engineSteps P turns.sum s).regs)).reverse ++ earlier := by
  obtain ⟨evs, hpolls⟩ := waitPolls_eq hne
  have hturns : engineTurns evs = turns.sum := by
    rw [← engineTurns_waitPolls, hpolls]
    simp [engineTurns, rd]
  have hobs : ∀ ev ∈ evs, Event.Observes ev := fun ev hev =>
    waitPolls_observes (hpolls ▸ List.mem_append_left _ hev)
  have hlen : (waitPolls turns).length + rs.length = evs.length + (Reg.status :: rs).length := by
    simp only [hpolls, List.length_append, List.length_cons, List.length_nil]
    omega
  obtain ⟨reads, hrun⟩ := runWith_observing P (rest := (.status :: rs).map rd) hr hobs
    (ha.trans (by simp [hpolls]))
  rw [hlen, runWith_add hrun, ← hturns]
  exact ⟨_, reads, runWith_reads P hr rfl, rfl, rfl⟩

/-! ## A whole transaction -/

/-- A CMD write on an idle engine whose wait leaves the engine the turns the command takes: the wait
ends with the outcome's STATUS, and the reads behind it see the outcome. -/
theorem runWith_command {P : Params} {s : State} {i : Instr} {turns : List Nat} {rs : List Reg} {m : Nat}
    {o : WalkOutcome} (hb : s.regs.status.busy = false) (hr : s.bus.resetIn = false)
    (hwf : i.wf = true) (hne : turns ≠ []) (hm : m ≤ turns.sum)
    (ho : HasOutcome P i (s.withAgenda (waitPolls turns ++ rs.map rd)) m o)
    (ha : s.bus.agenda = wr .cmd (encode i) :: (waitPolls turns ++ rs.map rd)) :
    ∃ t earlier, runWith P ((waitPolls turns).length + rs.length + 1) s = .next t ∧
      t.bus.agenda = [] ∧
      t.bus.reads = ((.status :: rs).map (readReg · (outcomeRegs s.regs o))).reverse ++ earlier := by
  have hbus := actOf_bus i (s.withAgenda (waitPolls turns ++ rs.map rd))
  rw [runWith_step (stepWith_command hwf hb hr ha), ← withAgenda_regs s (waitPolls turns ++ rs.map rd),
    ← ho.regs_of_le hm]
  exact runWith_wait P (by rw [hbus]; exact hr) hne (by rw [hbus]; rfl)

/-- Write the operands, write the command, wait, read: the shape of R91's pseudo-instructions. -/
def transaction (ws : List (Reg × Word)) (i : Instr) (turns : List Nat) (rs : List Reg) : List Event :=
  ws.map (fun w => wr w.1 w.2) ++ wr .cmd (encode i) :: (waitPolls turns ++ rs.map rd)

/-- A transaction with operands in registers other than CMD reads its command's outcome. -/
theorem runWith_transaction {P : Params} {s : State} {ws : List (Reg × Word)} {i : Instr}
    {turns : List Nat} {rs : List Reg} (m : Nat) (o : WalkOutcome)
    (hb : s.regs.status.busy = false) (hr : s.bus.resetIn = false)
    (hcmd : ∀ w ∈ ws, w.1 ≠ .cmd) (hwf : i.wf = true) (hne : turns ≠ []) (hm : m ≤ turns.sum)
    (ho : ∀ evs, HasOutcome P i ((writeRegs ws s).withAgenda evs) m o)
    (ha : s.bus.agenda = transaction ws i turns rs) :
    ∃ t earlier, runWith P (transaction ws i turns rs).length s = .next t ∧ t.bus.agenda = [] ∧
      t.bus.reads =
        ((.status :: rs).map (readReg · (outcomeRegs (writeRegs ws s).regs o))).reverse ++ earlier := by
  have hlen : (transaction ws i turns rs).length =
      ws.length + ((waitPolls turns).length + rs.length + 1) := by
    simp [transaction]
  rw [hlen, runWith_add (runWith_writes P hr hcmd ha)]
  refine runWith_command ?_ ?_ hwf hne hm (ho _) rfl
  · rw [withAgenda_regs, writeRegs_busy, hb]
  · rw [withAgenda_bus, writeRegs_bus, hr]

theorem runMix_eq (klo khi x : Word) (turns : List Nat) :
    runMix klo khi x turns =
      transaction [(.keyLo, klo), (.keyHi, khi), (.x, x)] .mix turns [.result] := by
  simp [runMix, transaction]

theorem runFeistel_eq (x : Word) (lb rb : Nat) (k : Word) (turns : List Nat) :
    runFeistel x lb rb k turns =
      transaction [(.x, x), (.key, k)] (.feistel lb rb) turns [.result] := by
  simp [runFeistel, transaction]

/-- STATUS and then RESULT after a completion without error and with OVR 0. -/
theorem reads_ok {r : Regs} (h : r.status.ovr = false) (v it : Word) :
    ([Reg.status, .result].map (readReg · (outcomeRegs r (.ok v it)))).reverse = [v, 0x2] := by
  simp only [List.map_cons, List.map_nil, readReg, outcomeRegs, h]
  rfl

/-- Settles O46: a transaction whose command takes one engine turn. -/
theorem runMixReadsMix : Obligations.RunMixReadsMix := by
  unfold Obligations.RunMixReadsMix
  intro P s klo khi x turns _ hb hr hovr hne hm ha
  rw [runMix_eq] at ha ⊢
  obtain ⟨t, earlier, hrun, hagenda, hreads⟩ := runWith_transaction 1 (.ok (P.mix klo khi x) 0)
    hb hr (by simp) rfl hne hm (fun evs => mix_hasOutcome P _) ha
  rw [reads_ok (by exact hovr)] at hreads
  exact ⟨t, earlier, hrun, hagenda, hreads⟩

/-- Settles O47: a transaction whose command takes four engine turns. -/
theorem runFeistelReadsFeistel4 : Obligations.RunFeistelReadsFeistel4 := by
  unfold Obligations.RunFeistelReadsFeistel4
  intro P s x k lb rb turns _ hb hr hovr hwidths hne hm ha
  have hwf : (Instr.feistel lb rb).wf = true := by
    simp only [Instr.wf, Bool.and_eq_true, decide_eq_true_eq]
    omega
  rw [runFeistel_eq] at ha ⊢
  obtain ⟨t, earlier, hrun, hagenda, hreads⟩ := runWith_transaction 4
    (.ok (feistel4 P.roundF x lb rb k) 0) hb hr (by simp) hwf hne hm
    (fun evs => feistel_hasOutcome P ((writeRegs [(.x, x), (.key, k)] s).withAgenda evs) hwidths) ha
  rw [reads_ok (by exact hovr)] at hreads
  exact ⟨t, earlier, hrun, hagenda, hreads⟩

end Sys2Proof.Machine
end

/-! # FEISTEL4 on the embedding domain (42_feistel.md R147, R148) -/

section
namespace Sys2Proof.Machine

/-- The blocks of `b` bits: the embedding domain for `b = lb + rb`. -/
def blocks (b : Nat) : Set Word := {w | w.toNat < 2 ^ b}

section rounds
variable (F : Word → Word → Word) (w k : Word) {lb rb : Nat}

/-! ## Injectivity -/

/-- The left part that a round brings in below. -/
theorem mixedLeft_lt (a : Nat) : a % 2 ^ lb % 2 ^ rb < 2 ^ lb :=
  (Nat.mod_le _ _).trans_lt (Nat.mod_lt _ (Nat.two_pow_pos lb))

/-- The right part moves to the top. -/
theorem feistelRound_div (hsum : lb + rb ≤ 64) :
    (feistelRound F w lb rb k).toNat / 2 ^ lb = w.toNat % 2 ^ rb := by
  rw [feistelRound_toNat_add F w k hsum, Nat.mul_comm, Nat.mul_add_div (Nat.two_pow_pos lb),
    Nat.div_eq_of_lt (mixedLeft_lt _), Nat.add_zero]

/-- For `lb ≤ rb` the mixed left part stands below whole. -/
theorem feistelRound_mod (hle : lb ≤ rb) (hsum : lb + rb ≤ 64) :
    (feistelRound F w lb rb k).toNat % 2 ^ lb =
      w.toNat / 2 ^ rb % 2 ^ lb ^^^ (F k (w &&& mask rb)).toNat % 2 ^ lb := by
  have hpow : 2 ^ lb ≤ 2 ^ rb := Nat.pow_le_pow_right Nat.two_pos hle
  rw [feistelRound_toNat_add F w k hsum, Nat.mul_comm, Nat.mul_add_mod,
    Nat.mod_eq_of_lt (mixedLeft_lt _),
    Nat.mod_eq_of_lt ((Nat.mod_lt _ (Nat.two_pow_pos lb)).trans_le hpow), Nat.xor_mod_two_pow,
    Nat.mod_mod]

/-- For `lb ≤ rb` the two parts of a round's value determine those of the block (R148). -/
theorem feistelRound_injOn (hle : lb ≤ rb) (hsum : lb + rb ≤ 64) :
    Set.InjOn (fun w => feistelRound F w lb rb k) (blocks (lb + rb)) := by
  intro w hw w' hw' h
  have h : feistelRound F w lb rb k = feistelRound F w' lb rb k := h
  have hrb : rb ≤ 64 := by omega
  have hright : w.toNat % 2 ^ rb = w'.toNat % 2 ^ rb := by
    rw [← feistelRound_div F w k hsum, h, feistelRound_div F w' k hsum]
  have hmask : w &&& mask rb = w' &&& mask rb :=
    BitVec.eq_of_toNat_eq (by rw [and_mask_toNat w hrb, and_mask_toNat w' hrb, hright])
  have hleft : w.toNat / 2 ^ rb % 2 ^ lb = w'.toNat / 2 ^ rb % 2 ^ lb := by
    have hmod := feistelRound_mod F w k hle hsum
    rw [h, feistelRound_mod F w' k hle hsum, hmask] at hmod
    exact (Nat.xor_left_injective hmod).symm
  have hlt {v : Word} (hv : v ∈ blocks (lb + rb)) : v.toNat / 2 ^ rb < 2 ^ lb :=
    Nat.div_lt_of_lt_mul (by rw [← Nat.pow_add, Nat.add_comm]; exact hv)
  rw [Nat.mod_eq_of_lt (hlt hw), Nat.mod_eq_of_lt (hlt hw')] at hleft
  apply BitVec.eq_of_toNat_eq
  rw [← Nat.div_add_mod w.toNat (2 ^ rb), hleft, hright, Nat.div_add_mod]

theorem feistelRound_mapsTo (hsum : lb + rb ≤ 64) :
    Set.MapsTo (fun w => feistelRound F w lb rb k) (blocks (lb + rb)) (blocks (lb + rb)) :=
  fun w _ => feistelRound_lt F w k hsum

theorem feistel4_eq_iterate :
    (fun w => feistel4 F w lb rb k) = (fun w => feistelRound F w lb rb k)^[4] := rfl

theorem feistel4_injOn (hle : lb ≤ rb) (hsum : lb + rb ≤ 64) :
    Set.InjOn (fun w => feistel4 F w lb rb k) (blocks (lb + rb)) :=
  feistel4_eq_iterate F k ▸ (feistelRound_injOn F k hle hsum).iterate (feistelRound_mapsTo F k hsum) 4

theorem feistel4_mapsTo (hsum : lb + rb ≤ 64) :
    Set.MapsTo (fun w => feistel4 F w lb rb k) (blocks (lb + rb)) (blocks (lb + rb)) :=
  feistel4_eq_iterate F k ▸ (feistelRound_mapsTo F k hsum).iterate 4

theorem feistel4Iter_eq_iterate (i : Nat) :
    feistel4Iter F lb rb k i w = (fun w => feistel4 F w lb rb k)^[i] w := by
  induction i generalizing w with
  | zero => rfl
  | succ i ih => exact ih _

end rounds

end Sys2Proof.Machine
end

/-! # The cycle walk ends (43_cycle_walk.md R181) -/

section
namespace Sys2Proof.Machine

/-! ## An injective walk comes back -/

/-- An injective walk that meets itself has come back to its start. -/
theorem iterate_sub_eq_self {f : Word → Word} {S : Set Word} (hinj : Set.InjOn f S)
    (hmaps : Set.MapsTo f S S) {x : Word} (hx : x ∈ S) {i j : Nat} (hij : i ≤ j)
    (h : f^[i] x = f^[j] x) : f^[j - i] x = x := by
  refine hinj.iterate hmaps i (hmaps.iterate (j - i) hx) hx ?_
  rw [← Function.iterate_add_apply, Nat.add_sub_cancel' hij, h]

/-- A walk from below `n` lands below `n` again before the blocks at or above `n` are used up: if it did
not, it would meet itself there, and so have come back to its start (R181). -/
theorem exists_iterate_lt {f : Word → Word} {b n : Nat} (hinj : Set.InjOn f (blocks b))
    (hmaps : Set.MapsTo f (blocks b) (blocks b)) (hn : n ≤ 2 ^ b) {x : Word} (hx : x.toNat < n) :
    ∃ i, 1 ≤ i ∧ i ≤ 2 ^ b - n + 1 ∧ (f^[i] x).toNat < n := by
  by_contra! hout
  have hxb : x ∈ blocks b := hx.trans_le hn
  have hret {i j : Nat} (hij : i < j) (hj : j ≤ 2 ^ b - n + 1) : f^[i] x ≠ f^[j] x := by
    intro h
    have := hout (j - i) (by omega) (by omega)
    rw [iterate_sub_eq_self hinj hmaps hxb hij.le h] at this
    omega
  have hrange : Set.MapsTo (fun i => (f^[i] x).toNat) (Finset.Icc 1 (2 ^ b - n + 1))
      (Finset.Ico n (2 ^ b)) := by
    intro i hi
    obtain ⟨h1, hle⟩ := Finset.mem_Icc.1 hi
    exact Finset.mem_Ico.2 ⟨hout i h1 hle, hmaps.iterate i hxb⟩
  obtain ⟨i, hi, j, hj, hne, h⟩ :=
    Finset.exists_ne_map_eq_of_card_lt_of_maps_to (by simp) hrange
  have h : f^[i] x = f^[j] x := BitVec.eq_of_toNat_eq h
  rw [Finset.mem_Icc] at hi hj
  obtain hlt | hlt := Nat.lt_or_gt_of_ne hne
  · exact hret hlt hj.2 h
  · exact hret hlt hi.2 h.symm

/-- The walk over `[0, n)` lands within the bound of R181. -/
theorem exists_feistel4Iter_lt (F : Word → Word → Word) (k : Word) {x n : Word} (hx : x.toNat < n.toNat) :
    ∃ i, 1 ≤ i ∧ i ≤ 2 ^ clog2 n.toNat - n.toNat + 1 ∧
      (feistel4Iter F (widths n.toNat).1 (widths n.toNat).2 k i x).toNat < n.toNat := by
  have hsum := widths_sum n.toNat
  have h64 := clog2_le_64 n
  have hinj := feistel4_injOn F k (widths_le n.toNat) (by omega)
  have hmaps := feistel4_mapsTo F k (lb := (widths n.toNat).1) (rb := (widths n.toNat).2) (by omega)
  rw [hsum] at hinj hmaps
  simp only [feistel4Iter_eq_iterate]
  exact exists_iterate_lt hinj hmaps (le_two_pow_clog2 n) hx

/-! ## The loop of FPEWALK -/

section loop
variable {F : Word → Word → Word} {n k limit : Word} {lb rb : Nat}

/-- The loop has an outcome when some application within its bound lands. -/
theorem exists_walkLoop_eq_some {fuel i : Nat} {w it : Word} (h1 : 1 ≤ i) (hfuel : i ≤ fuel)
    (hland : (feistel4Iter F lb rb k i w).toNat < n.toNat) :
    ∃ o, walkLoop F n k limit lb rb fuel w it = some o := by
  induction fuel generalizing i w it with
  | zero => omega
  | succ fuel ih =>
    rw [walkLoop]
    split
    · exact ⟨_, rfl⟩
    · next hout =>
      split
      · exact ⟨_, rfl⟩
      · obtain ⟨i, rfl⟩ := Nat.exists_eq_add_of_le' h1
        have hi : 1 ≤ i := by
          by_contra hi
          obtain rfl : i = 0 := by omega
          exact hout (BitVec.lt_def.2 hland)
        exact ih hi (by omega) hland

end loop

theorem exists_fpeWalk_eq_some (F : Word → Word → Word) (x n k limit : Word) :
    ∃ o, fpeWalk F x n k limit = some o := by
  unfold fpeWalk
  split
  · exact ⟨_, rfl⟩
  · split
    · exact ⟨_, rfl⟩
    · next hx =>
      split
      · exact ⟨_, rfl⟩
      · obtain ⟨i, h1, hfuel, hland⟩ := exists_feistel4Iter_lt F k (BitVec.lt_def.1 (BitVec.not_le.1 hx))
        exact exists_walkLoop_eq_some h1 hfuel hland

end Sys2Proof.Machine
end

/-! # The outcome of FPE (43_cycle_walk.md R180, R187) -/

section
namespace Sys2Proof.Machine

/-- The number of applications that an outcome reports (R180). -/
def WalkOutcome.iter : WalkOutcome → Word
  | .ok _ it => it
  | .error _ it => it

/-- The engine's steps follow the loop of R180, four for each application. -/
theorem walkLoop_engineSteps {P : Params} {s : State} {o : WalkOutcome} {fuel : Nat}
    (hf : s.eng.fsm = .rounds) (hop : s.eng.op ≠ .feistel) (hr : s.eng.round = 0)
    (h : walkLoop P.roundF s.eng.n s.eng.k s.eng.limit s.eng.lb s.eng.rb fuel s.eng.w s.eng.iter
      = some o) :
    ∃ j, j ≤ fuel ∧ o.iter = s.eng.iter + BitVec.ofNat 64 j ∧
      (engineSteps P (4 * j) s).regs = outcomeRegs s.regs o ∧
      (engineSteps P (4 * j) s).eng.fsm = .idle := by
  induction fuel generalizing s with
  | zero => cases h
  | succ fuel ih =>
    have hfour : engineSteps P 4 s = walkCheck (applied P s) := by
      rw [engineSteps_four P hf hr, if_neg hop]
    rw [walkLoop] at h
    obtain ⟨hlt, hw⟩ | ⟨hge, hlim, hcap, hw⟩ | ⟨hge, hgo, hw⟩ := walkCheck_cases (applied P s)
    · rw [if_pos (by exact hlt)] at h
      cases h
      exact ⟨1, by omega, rfl, by rw [hfour, hw]; rfl, by rw [hfour, hw]; rfl⟩
    · rw [if_neg (by exact BitVec.not_lt.2 hge), if_pos (by exact ⟨hlim, hcap⟩)] at h
      cases h
      exact ⟨1, by omega, rfl, by rw [hfour, hw]; rfl, by rw [hfour, hw]; rfl⟩
    · rw [if_neg (by exact BitVec.not_lt.2 hge), if_neg (by exact fun hc => hgo.elim hc.1 (· hc.2))] at h
      obtain ⟨j, hj, hiter, hend⟩ := ih (s := applied P s) hf hop rfl h
      refine ⟨j + 1, by omega, ?_, ?_⟩
      · rw [hiter, Nat.add_comm j, BitVec.ofNat_add, ← BitVec.add_assoc]
        rfl
      · rw [Nat.mul_succ, Nat.add_comm, engineSteps_add, hfour, hw]
        exact hend

theorem fpeTurns_eq {n : Word} (hn : n ≠ 1) (o : WalkOutcome) : fpeTurns n o = 4 * o.iter.toNat := by
  cases o with
  | ok => exact if_neg hn
  | error => rfl

/-- An accepted walk: its number of applications fits ITER, by R181's bound. -/
theorem walk_hasOutcome {P : Params} {s : State} {o : WalkOutcome} (hn0 : s.regs.n ≠ 0)
    (hx : ¬ s.regs.n ≤ s.regs.x) (hn1 : s.regs.n ≠ 1)
    (h : walkLoop P.roundF s.regs.n s.regs.key s.regs.walkLimit (widths s.regs.n.toNat).1
      (widths s.regs.n.toNat).2 (2 ^ clog2 s.regs.n.toNat - s.regs.n.toNat + 1) s.regs.x 0 = some o) :
    HasOutcome P .fpe s (fpeTurns s.regs.n o) o := by
  have hact : actOf .fpe s = startRunning .fpe .rounds
      (loadRounds (widths s.regs.n.toNat).1 (widths s.regs.n.toNat).2 (accept s)) :=
    (if_neg hn0).trans ((if_neg hx).trans (if_neg hn1))
  obtain ⟨j, hj, hiter, hregs, hidle⟩ := walkLoop_engineSteps (P := P) (s := actOf .fpe s)
    (by rw [hact]; rfl) (by rw [hact]; nofun) (by rw [hact]; rfl) (by rw [hact]; exact h)
  have hturns : fpeTurns s.regs.n o = 4 * j := by
    have h0 : s.regs.n.toNat ≠ 0 := fun h => hn0 (BitVec.eq_of_toNat_eq h)
    have h1 : s.regs.n.toNat ≠ 1 := fun h => hn1 (BitVec.eq_of_toNat_eq h)
    have hpow : 2 ^ clog2 s.regs.n.toNat ≤ 2 ^ 64 :=
      Nat.pow_le_pow_right Nat.two_pos (clog2_le_64 s.regs.n)
    have hiter : o.iter = BitVec.ofNat 64 j := by
      rw [hiter, hact]
      exact BitVec.zero_add _
    rw [fpeTurns_eq hn1, hiter, BitVec.toNat_ofNat, Nat.mod_eq_of_lt (by omega)]
  have hstart : outcomeRegs (actOf .fpe s).regs o = outcomeRegs s.regs o := by
    rw [hact]
    exact outcomeRegs_withStatus s.regs rfl o
  rw [← hturns] at hregs hidle
  exact ⟨hregs.trans hstart, hidle⟩

/-- An FPE command gives FPEWALK's outcome, after the engine turns of that outcome (R180, R187). -/
theorem fpe_hasOutcome {P : Params} {s : State} {o : WalkOutcome}
    (h : fpeWalk P.roundF s.regs.x s.regs.n s.regs.key s.regs.walkLimit = some o) :
    HasOutcome P .fpe s (fpeTurns s.regs.n o) o := by
  unfold fpeWalk at h
  split at h
  · next hn =>
    have hact : actOf .fpe s = completeError .nZero 0 (accept s) := if_pos hn
    cases h
    constructor <;> rw [hact] <;> rfl
  · next hn0 =>
    split at h
    · next hx =>
      have hact : actOf .fpe s = completeError .inputRange 0 (accept s) :=
        (if_neg hn0).trans (if_pos hx)
      cases h
      constructor <;> rw [hact] <;> rfl
    · next hx =>
      split at h
      · next hn =>
        have hact : actOf .fpe s = startRunning .fpe .ident (accept s) :=
          (if_neg hn0).trans ((if_neg hx).trans (if_pos hn))
        have hturns : fpeTurns s.regs.n (.ok s.regs.x 0) = 1 := if_pos hn
        cases h
        constructor <;> rw [hact, hturns] <;> rfl
      · next hn1 => exact walk_hasOutcome hn0 hx hn1 h

theorem runFpe_eq (x n k : Word) (turns : List Nat) :
    runFpe x n k turns =
      transaction [(.x, x), (.n, n), (.key, k)] .fpe turns [.status, .result, .iter] := by
  simp [runFpe, transaction]

/-- Settles O60: the walk always has an outcome, and `run.fpe` is a transaction whose command gives it;
the operand writes leave what an outcome keeps, OVR and the old RESULT. -/
theorem runFpeReadsWalk : Obligations.RunFpeReadsWalk := by
  unfold Obligations.RunFpeReadsWalk
  intro P s x n k turns hb hr hne
  obtain ⟨o, ho⟩ := exists_fpeWalk_eq_some P.roundF x n k s.regs.walkLimit
  refine ⟨o, ho, fun hm ha => ?_⟩
  rw [runFpe_eq] at ha ⊢
  obtain ⟨t, earlier, hrun, hagenda, hreads⟩ := runWith_transaction (fpeTurns n o) o hb hr (by simp) rfl
    hne hm (fun evs => fpe_hasOutcome
      (s := (writeRegs [(.x, x), (.n, n), (.key, k)] s).withAgenda evs) ho) ha
  refine ⟨t, earlier, hrun, hagenda, hreads.trans ?_⟩
  cases o <;> rfl

end Sys2Proof.Machine
end

/-! # The CMD write (40_command.md R100 to R108, 20_memory.md R57) -/

section
namespace Sys2Proof.Machine

/-! ## Presentation to a busy and to an idle engine -/

theorem exec_busy {s : State} (i : Instr) (h : s.regs.status.busy = true) :
    exec i s = .next (lostCommand s) := by
  rw [exec_eq, present_busy h]

theorem exec_idle {s : State} (i : Instr) (h : s.regs.status.busy = false) :
    exec i s = .next (actOf i s) := by
  rw [exec_eq, present_idle h]

/-- Settles O6: the word is lost undecoded, and every command is presented the same way. -/
theorem busyCommandIsLost : Obligations.BusyCommandIsLost := by
  unfold Obligations.BusyCommandIsLost
  exact fun s hb => ⟨fun v => command_busy v hb, fun i => exec_busy i hb⟩

theorem decode_zero : decode 0x0 = .ok .nop := decodeEncodeRoundTrip .nop rfl

/-- Settles O5: NOP has no effect of its own on an idle engine, and a busy one loses it like any word. -/
theorem nopChangesNothing : Obligations.NopChangesNothing := by
  unfold Obligations.NopChangesNothing
  intro s
  rw [command_legal s decode_zero]
  constructor
  · intro hidle
    have hnop : exec .nop s = .next s := exec_idle .nop hidle
    exact ⟨hnop, hnop⟩
  · intro hbusy
    have hnop := exec_busy .nop hbusy
    exact ⟨hnop, hnop⟩

theorem hostAccess_writeCmd (v : Word) (s : State) : hostAccess (.write 0x00 8 v) s = command v s :=
  hostAccess_write (legalAt_offset .cmd) v s

/-- A CMD write of a legal word as the next event is the step of its command (R57, R100). -/
theorem stepWith_legalWord {P : Params} {s : State} {v : Word} {i : Instr} {evs : List Event}
    (hr : s.bus.resetIn = false) (ha : s.bus.agenda = .access (.write 0x00 8 v) :: evs)
    (hd : decode v = .ok i) : stepWith P s = exec i (s.withAgenda evs) := by
  rw [stepWith_access hr ha, hostAccess_writeCmd, command_legal _ hd]

/-- Settles O53: this chip is one of the chips. -/
theorem stepRunsDecodedCommand : Obligations.StepRunsDecodedCommand := by
  unfold Obligations.StepRunsDecodedCommand
  exact fun P s v i evs hr ha hd => ⟨stepWith_legalWord hr ha hd, stepWith_legalWord hr ha hd⟩

/-! ## What a command's CMD write can do -/

/-- What the CMD write of the legal word `i` can make of `s`. A check can fail in FEISTEL and FPE only. -/
inductive CommandEffect (i : Instr) (s : State) : State → Prop where
  | lost (hbusy : s.regs.status.busy = true) : CommandEffect i s (lostCommand s)
  | nothing (hidle : s.regs.status.busy = false) (hnop : i = .nop) : CommandEffect i s s
  | failed {c : ErrorCode} (hidle : s.regs.status.busy = false) (hnop : i ≠ .nop) (hmix : i ≠ .mix) :
      CommandEffect i s (completeError c 0 (accept s))
  | started {t : State} (hidle : s.regs.status.busy = false) (hstart : Starts (accept s) i t) :
      CommandEffect i s t

/-- No check of MIX can fail (41_mix.md R122). -/
theorem ne_mix_of_actOf_eq_completeError {i : Instr} {s : State} {c : ErrorCode} {it : Word}
    (h : actOf i s = completeError c it (accept s)) : i ≠ .mix := by
  rintro rfl
  have hbusy : true = false := congrArg (fun t : State => t.regs.status.busy) h
  cases hbusy

theorem exec_effect {i : Instr} {s t : State} (h : exec i s = .next t) : CommandEffect i s t := by
  cases hb : s.regs.status.busy with
  | true =>
    rw [exec_busy i hb] at h
    cases h
    exact .lost hb
  | false =>
    rw [exec_idle i hb] at h
    cases h
    obtain ⟨hnop, hact⟩ | ⟨hnop, c, hact⟩ | hstart := actOf_cases i s
    · rw [hact]
      exact .nothing hb hnop
    · have hmix := ne_mix_of_actOf_eq_completeError hact
      rw [hact]
      exact .failed hb hnop hmix
    · exact .started hb hstart

/-! ## What it leaves unchanged -/

theorem Starts.bus {s t : State} {i : Instr} (h : Starts s i t) : t.bus = s.bus := by
  cases h <;> rfl

/-- A command begins to run with the operands it was accepted with. -/
theorem Starts.latched {s t : State} {i : Instr} {r : Regs} (h : Starts s i t)
    (hs : Latched s.eng r) : Latched t.eng r := by
  cases h <;> exact hs

theorem latched_accept (s : State) : Latched (accept s).eng s.regs := ⟨rfl, rfl, rfl, rfl, rfl, rfl⟩

/-- The bytes of the window in which two states can differ that agree in what the host writes and in
RESULT: those of STATUS and ITER. -/
theorem SameHostWritten.windowByte_eq {x y : Regs} (h : SameHostWritten x y)
    (hresult : y.result = x.result) {a : Nat} (hstatus : ¬ (0x08 ≤ a ∧ a < 0x10))
    (hiter : ¬ (0x48 ≤ a ∧ a < 0x50)) : windowByte y a = windowByte x a := by
  refine windowByte_congr fun r hr => ?_
  by_cases hres : r = .result
  · subst hres
    exact hresult
  · refine h.readReg_eq ?_ hres ?_
    · rintro rfl
      simp only [Reg.offset] at hr
      omega
    · rintro rfl
      simp only [Reg.offset] at hr
      omega

namespace CommandEffect

variable {i : Instr} {s t : State}

theorem sameHostWritten (h : CommandEffect i s t) : SameHostWritten s.regs t.regs := by
  cases h with
  | lost | nothing | failed => simp [SameHostWritten]
  | started _ hstart => simp [SameHostWritten, hstart.regs]

theorem result (h : CommandEffect i s t) : t.regs.result = s.regs.result := by
  cases h with
  | lost | nothing | failed => rfl
  | started _ hstart => simp [hstart.regs]

theorem bus (h : CommandEffect i s t) : t.bus = s.bus := by
  cases h with
  | lost | nothing | failed => rfl
  | started _ hstart => simp [hstart.bus]

/-- ITER is written by a failed check alone (R101, R106). -/
theorem iter (h : CommandEffect i s t) :
    t.regs.iter = s.regs.iter ∨
      (s.regs.status.busy = false ∧ t.regs.iter = 0 ∧ t.regs.status.err = true) := by
  cases h with
  | lost | nothing => exact .inl rfl
  | failed hidle => exact .inr ⟨hidle, rfl, rfl⟩
  | started _ hstart => exact .inl (by simp [hstart.regs])

theorem ovr_of_idle (h : CommandEffect i s t) (hb : s.regs.status.busy = false) :
    t.regs.status.ovr = s.regs.status.ovr := by
  cases h with
  | lost hbusy => simp [hb] at hbusy
  | nothing | failed => rfl
  | started _ hstart => simp [hstart.regs]

theorem eq_lostCommand (h : CommandEffect i s t) (hb : s.regs.status.busy = true) :
    t = lostCommand s := by
  cases h with
  | lost => rfl
  | nothing hidle | failed hidle | started hidle => simp [hb] at hidle

theorem eq_of_nop (h : CommandEffect .nop s t) : t = s ∨ t = lostCommand s := by
  cases h with
  | lost => exact .inr rfl
  | nothing => exact .inl rfl
  | failed _ hnop => contradiction
  | started _ hstart => exact absurd rfl hstart.ne_nop

theorem latched (h : CommandEffect i s t) (hi : i ≠ .nop) (hb : s.regs.status.busy = false) :
    Latched t.eng s.regs := by
  cases h with
  | lost hbusy => simp [hb] at hbusy
  | nothing _ hnop => contradiction
  | failed => exact latched_accept s
  | started _ hstart => exact hstart.latched (latched_accept s)

/-- MIX loads no rounds and cannot fail (41_mix.md R122). -/
theorem mix_keeps (h : CommandEffect .mix s t) :
    t.regs.iter = s.regs.iter ∧ t.eng.lb = s.eng.lb ∧ t.eng.rb = s.eng.rb ∧
      t.eng.w = s.eng.w ∧ t.eng.round = s.eng.round ∧ t.eng.iter = s.eng.iter := by
  cases h with
  | lost => exact ⟨rfl, rfl, rfl, rfl, rfl, rfl⟩
  | nothing _ hnop => cases hnop
  | failed _ _ hmix => contradiction
  | started _ hstart =>
    cases hstart
    exact ⟨rfl, rfl, rfl, rfl, rfl, rfl⟩

end CommandEffect

/-- Settles O48: each clause is read off the ways in which a CMD write can end. -/
theorem acceptanceFrame : Obligations.AcceptanceFrame := by
  unfold Obligations.AcceptanceFrame
  intro i s t hexec
  have h := exec_effect hexec
  refine ⟨h.sameHostWritten, h.result, h.bus,
    fun _ => h.sameHostWritten.windowByte_eq h.result, h.iter, h.ovr_of_idle, ?busy, ?nop,
    h.latched, ?mix⟩
  case busy =>
    intro hb
    obtain rfl := h.eq_lostCommand hb
    exact ⟨rfl, rfl, hb, rfl, rfl, rfl⟩
  case nop =>
    rintro rfl
    obtain rfl | rfl := h.eq_of_nop <;> exact ⟨rfl, rfl, rfl, rfl, rfl, rfl⟩
  case mix =>
    rintro rfl
    exact h.mix_keeps

end Sys2Proof.Machine
end

/-! # MIX from its CMD write to its completion (41_mix.md R121 to R124) -/

section
namespace Sys2Proof.Machine

/-- Settles O7: acceptance latches the operands and starts the command, with no check between. -/
theorem mixIsAccepted : Obligations.MixIsAccepted := by
  unfold Obligations.MixIsAccepted
  intro s hb
  have hstart : actOf .mix s = startRunning .mix .mixing (accept s) := rfl
  rw [exec_idle .mix hb, hstart]
  rfl

/-- Engine turns in a row are as many engine steps, and of the bus they change the agenda alone. -/
theorem runWith_turns (P : Params) {s : State} {m : Nat} {evs : List Event}
    (ha : s.bus.agenda = List.replicate m .engine ++ evs) :
    runWith P m s = .next ((engineSteps P m s).withBus { s.bus with agenda := evs }) := by
  induction m generalizing s with
  | zero =>
    obtain rfl : s.bus.agenda = evs := ha
    rfl
  | succ m ih =>
    have hstep : stepWith P s = .next ((engineStep P s).withBus
        { s.bus with agenda := List.replicate m .engine ++ evs }) :=
      (stepWith_engine ha).trans (congrArg _ (engineStep_withBus P s _))
    rw [runWith_step hstep, ih rfl, engineSteps_withBus]
    rfl

/-- A legal word written to CMD on an idle engine and the engine turns its command takes: the registers
show the outcome, and the bus has lost these events alone (R57, R100). -/
theorem runWith_legalWord {P : Params} {s : State} {v : Word} {i : Instr} {m : Nat} {o : WalkOutcome}
    {evs : List Event} (hb : s.regs.status.busy = false) (hr : s.bus.resetIn = false)
    (hd : decode v = .ok i)
    (ho : HasOutcome P i (s.withAgenda (List.replicate m .engine ++ evs)) m o)
    (ha : s.bus.agenda = .access (.write 0x00 8 v) :: (List.replicate m .engine ++ evs)) :
    ∃ t, runWith P (m + 1) s = .next t ∧ t.regs = outcomeRegs s.regs o ∧ t.eng.fsm = .idle ∧
      t.bus = { s.bus with agenda := evs } := by
  have hact := actOf_bus i (s.withAgenda (List.replicate m .engine ++ evs))
  have hstep := (stepWith_legalWord (P := P) hr ha hd).trans (exec_idle i (by exact hb))
  refine ⟨_, (runWith_step hstep m).trans (runWith_turns P (by rw [hact]; rfl)), ho.regs, ho.idle, ?_⟩
  rw [withBus_bus, hact]
  rfl

theorem decode_one : decode 0x1 = .ok .mix := decodeEncodeRoundTrip .mix rfl

/-- Settles O8: MIX ends after one engine turn, with the mix core's value on the latched operands. -/
theorem mixCommandComputesMix : Obligations.MixCommandComputesMix := by
  unfold Obligations.MixCommandComputesMix
  intro P s evs hb hr ha
  exact runWith_legalWord (m := 1) hb hr decode_one (mix_hasOutcome P _) ha

end Sys2Proof.Machine
end

/-! # The working block while rounds run (42_feistel.md R146, 43_cycle_walk.md R177, R181) -/

section
namespace Sys2Proof.Machine

/-! ## The count of a walk that has not landed -/

/-- A walk that has stayed at or above `n` has used up at most the blocks there (R181). -/
theorem walk_count_le {F : Word → Word → Word} {k x n : Word} {lb rb m : Nat} (hle : lb ≤ rb)
    (hsum : lb + rb = clog2 n.toNat) (hx : x.toNat < n.toNat)
    (hout : ∀ i, 1 ≤ i → i ≤ m → n.toNat ≤ (feistel4Iter F lb rb k i x).toNat) :
    m ≤ 2 ^ clog2 n.toNat - n.toNat := by
  have h64 : lb + rb ≤ 64 := hsum.trans_le (clog2_le_64 n)
  have hdomain : n.toNat ≤ 2 ^ (lb + rb) := hsum ▸ le_two_pow_clog2 n
  obtain ⟨i, h1, hi, hland⟩ :=
    exists_iterate_lt (feistel4_injOn F k hle h64) (feistel4_mapsTo F k h64) hdomain hx
  rw [← feistel4Iter_eq_iterate] at hland
  rw [hsum] at hi
  by_contra! hm
  exact absurd (hout i h1 (by omega)) hland.not_ge

/-- The count of a running walk does not wrap with the next application. -/
theorem WalkInv.iter_add_one_toNat {P : Params} {s : State} (h : WalkInv P s) (hinv : Inv s)
    (hf : s.eng.fsm = .rounds) (hop : s.eng.op = .fpe) :
    (s.eng.iter + 1).toNat = s.eng.iter.toNat + 1 := by
  obtain ⟨hle, hsum, hn, hx, -⟩ := hinv.fpe_rounds hf hop
  have hcount := walk_count_le hle hsum hx (h.outside_so_far hf hop)
  have hpow : 2 ^ clog2 s.eng.n.toNat ≤ 2 ^ 64 :=
    Nat.pow_le_pow_right Nat.two_pos (clog2_le_64 s.eng.n)
  exact BitVec.toNat_add_of_lt (show s.eng.iter.toNat + 1 < 2 ^ 64 by omega)

/-! ## Every step keeps the meaning of the block -/

theorem walkInv_of_not_rounds {P : Params} {s : State} (h : s.eng.fsm ≠ .rounds) : WalkInv P s :=
  ⟨fun hf => absurd hf h, fun hf => absurd hf h, fun hf => absurd hf h⟩

/-- The meaning of the block is about the engine's own state alone. -/
theorem WalkInv.of_eng_eq {P : Params} {s t : State} (h : WalkInv P s) (heng : t.eng = s.eng) :
    WalkInv P t :=
  ⟨heng ▸ h.block_is_history, heng ▸ h.outside_so_far, heng ▸ h.below_cap⟩

/-- The rounds begin on the latched input, with no application finished. -/
theorem walkInv_loadRounds (P : Params) (op : Op) (lb rb : Nat) (s : State) :
    WalkInv P (startRunning op .rounds (loadRounds lb rb s)) where
  block_is_history _ := rfl
  outside_so_far _ _ _ h1 h0 := absurd (h1.trans h0) (by simp)
  below_cap _ _ hlimit := Nat.pos_of_ne_zero fun h0 => hlimit (BitVec.eq_of_toNat_eq h0)

theorem Starts.walkInv {P : Params} {s t : State} {i : Instr} (h : Starts s i t) : WalkInv P t := by
  cases h with
  | mix => exact walkInv_of_not_rounds nofun
  | ident => exact walkInv_of_not_rounds nofun
  | feistel | walk => exact walkInv_loadRounds _ _ _ _ _

/-- A round before the fourth is one more round on the block. -/
theorem WalkInv.stepRound_early {P : Params} {s : State} (h : WalkInv P s) (hf : s.eng.fsm = .rounds)
    (hr : s.eng.round < 3) : WalkInv P (stepRound P s) := by
  rw [Machine.stepRound_early hr]
  refine ⟨fun _ => ?_, h.outside_so_far, h.below_cap⟩
  rw [withEng_eng, feistelRounds_add _ _ _ _ _ 1, ← h.block_is_history hf]
  rfl

/-- The fourth round makes the block the value after one more application. -/
theorem WalkInv.afterApplication_w {P : Params} {s : State} (h : WalkInv P s)
    (hf : s.eng.fsm = .rounds) (hr : s.eng.round = 3) :
    (afterApplication P s).eng.w =
      feistel4Iter P.roundF s.eng.lb s.eng.rb s.eng.k (s.eng.iter.toNat + 1) s.eng.x := by
  have hw := h.block_is_history hf
  rw [hr] at hw
  rw [feistel4Iter_add, afterApplication, withEng_eng, hw]
  rfl

/-- A walk that goes on after an application is again at or above `n` and below the cap (R177). -/
theorem WalkInv.of_walk_goes_on {P : Params} {s : State} (h : WalkInv P s) (hinv : Inv s)
    (hf : s.eng.fsm = .rounds) (hop : s.eng.op = .fpe) (hr : s.eng.round = 3)
    (hout : s.eng.n ≤ (afterApplication P s).eng.w)
    (hgo : s.eng.limit = 0 ∨ s.eng.iter + 1 ≠ s.eng.limit) : WalkInv P (afterApplication P s) := by
  have hw := h.afterApplication_w hf hr
  have hiter : (afterApplication P s).eng.iter.toNat = s.eng.iter.toNat + 1 :=
    h.iter_add_one_toNat hinv hf hop
  refine ⟨fun _ => ?block, fun _ _ i h1 hi => ?outside, fun _ _ hlimit => ?cap⟩
  case block => rw [hw, hiter]; rfl
  case outside =>
    rw [hiter] at hi
    obtain hi | rfl := Nat.le_succ_iff.1 hi
    · exact h.outside_so_far hf hop i h1 hi
    · exact BitVec.le_def.1 (hw ▸ hout)
  case cap =>
    have hlt := h.below_cap hf hop hlimit
    have hne : (afterApplication P s).eng.iter.toNat ≠ s.eng.limit.toNat :=
      fun he => (hgo.resolve_left hlimit) (BitVec.eq_of_toNat_eq he)
    rw [hiter] at hne ⊢
    exact lt_of_le_of_ne hlt hne

theorem WalkInv.engineStep {P : Params} {s : State} (h : WalkInv P s) (hinv : Inv s) :
    WalkInv P (engineStep P s) := by
  obtain ⟨-, he⟩ | ⟨-, he⟩ | ⟨-, he⟩ | ⟨hf, he⟩ := engineStep_cases P s <;> rw [he]
  · exact h
  · exact walkInv_of_not_rounds nofun
  · exact walkInv_of_not_rounds nofun
  by_cases hr : s.eng.round < 3
  · exact h.stepRound_early hf hr
  obtain hop | hop := hinv.rounds_op hf
  · rw [stepRound_feistel hr hop]
    exact walkInv_of_not_rounds nofun
  · rw [stepRound_walk hr (by simp [hop])]
    obtain ⟨-, hc⟩ | ⟨-, -, -, hc⟩ | ⟨hout, hgo, hc⟩ := walkCheck_cases (afterApplication P s) <;>
      rw [hc]
    · exact walkInv_of_not_rounds nofun
    · exact walkInv_of_not_rounds nofun
    · have := hinv.round_le
      exact h.of_walk_goes_on hinv hf hop (by omega) hout hgo

/-- Settles O57: the engine's steps keep it, acceptance loads the latched input, completion and reset
leave no block in work, and nothing else touches the engine. -/
theorem everyStepKeepsWalkInv : Obligations.EveryStepKeepsWalkInv := by
  unfold Obligations.EveryStepKeepsWalkInv
  intro P s t hinv h hstep
  cases stepWith_effect hstep with
  | @engine evs => exact (h.of_eng_eq (t := s.withAgenda evs) rfl).engineStep (inv_withAgenda hinv evs)
  | reset => exact walkInv_of_not_rounds nofun
  | untouched _ heng => exact h.of_eng_eq heng
  | register => exact h.of_eng_eq (writeReg_eng _ _ _)
  | lost => exact h.of_eng_eq rfl
  | failed => exact walkInv_of_not_rounds nofun
  | started _ _ _ _ hstart => exact hstart.walkInv

end Sys2Proof.Machine
end

/-! # FEISTEL from its CMD write to its completion (42_feistel.md R142 to R147) -/

section
namespace Sys2Proof.Machine

theorem widthsLegal_iff {lb rb : Nat} : widthsLegal lb rb = true ↔ 1 ≤ lb ∧ 1 ≤ rb ∧ lb + rb ≤ 64 := by
  simp [widthsLegal, and_assoc]

/-- Legal widths: the rounds begin on the latched block (R145). -/
theorem actOf_feistel_legal {lb rb : Nat} (h : 1 ≤ lb ∧ 1 ≤ rb ∧ lb + rb ≤ 64) (s : State) :
    actOf (.feistel lb rb) s = startRunning .feistel .rounds (loadRounds lb rb (accept s)) :=
  if_pos (widthsLegal_iff.2 h)

/-- Any other widths: BAD_WIDTH at once (R145, R202). -/
theorem actOf_feistel_illegal {lb rb : Nat} (h : ¬ (1 ≤ lb ∧ 1 ≤ rb ∧ lb + rb ≤ 64)) (s : State) :
    actOf (.feistel lb rb) s = completeError .badWidth 0 (accept s) :=
  if_neg (mt widthsLegal_iff.1 h)

/-- Settles O9: the two clauses are the two outcomes of the width check. -/
theorem feistelAcceptance : Obligations.FeistelAcceptance := by
  unfold Obligations.FeistelAcceptance
  intro lb rb s hb
  rw [exec_idle _ hb]
  constructor
  · intro hlegal
    refine ⟨by omega, ?_⟩
    rw [actOf_feistel_legal hlegal]
    rfl
  · intro hbad
    rw [actOf_feistel_illegal (by omega)]
    rfl

/-- Before its fourth round an accepted FEISTEL command is busy, whatever `ROUND_F` is. -/
theorem feistel_busy_before_four (P : Params) (s : State) {lb rb m : Nat}
    (h : 1 ≤ lb ∧ 1 ≤ rb ∧ lb + rb ≤ 64) (hm : m < 4) :
    (engineSteps P m (actOf (.feistel lb rb) s)).regs.status.busy = true := by
  rw [actOf_feistel_legal h, engineSteps_early P rfl (by simp; omega)]
  rfl

/-- Settles O10: the branches of the round step, and four of them for an accepted FEISTEL command. -/
theorem roundEngineStep : Obligations.RoundEngineStep := by
  unfold Obligations.RoundEngineStep
  refine ⟨fun P s hf hr => ?early, fun P s hf hr ho => ?feistel, fun P s hf hr ho => ?walk,
    fun P s lb rb hb hlegal => ?busy⟩
  case early => rw [engineStep_rounds hf, stepRound_early hr]; rfl
  case feistel => rw [engineStep_rounds hf, stepRound_feistel (by omega) ho]; rfl
  case walk => rw [engineStep_rounds hf, stepRound_walk (by omega) ho]; rfl
  case busy =>
    refine ⟨_, exec_idle _ hb, fun m hm => feistel_busy_before_four P s hlegal hm, ?_⟩
    rw [(feistel_hasOutcome P s hlegal).regs]
    rfl

/-- Settles O11: the word is FEISTEL's, and its outcome after four turns is FEISTEL4 of the latched
operands. -/
theorem feistelCommandComputesFeistel4 : Obligations.FeistelCommandComputesFeistel4 := by
  unfold Obligations.FeistelCommandComputesFeistel4
  intro P s lb rb evs hb hr hlegal ha
  have hwf : (Instr.feistel lb rb).wf = true := (Instr.wf_iff _).2 (by simp only [Instr.widths]; omega)
  exact runWith_legalWord hb hr (decodeEncodeRoundTrip _ hwf) (feistel_hasOutcome P _ hlegal) ha

end Sys2Proof.Machine
end

/-! # What a round keeps of a block (42_feistel.md R147, R149) -/

section
namespace Sys2Proof.Machine

theorem mod_two_pow_mod_two_pow (a b c : Nat) : a % 2 ^ b % 2 ^ c = a % 2 ^ min b c := by
  obtain h | h := Nat.le_total b c
  · have hlt := (Nat.mod_lt a (Nat.two_pow_pos b)).trans_le (Nat.pow_le_pow_right Nat.two_pos h)
    rw [Nat.min_eq_left h, Nat.mod_eq_of_lt hlt]
  · rw [Nat.min_eq_right h, Nat.mod_mod_of_dvd a (Nat.pow_dvd_pow 2 h)]

/-- A round reads the right part and the low `min lb rb` bits of the left part. -/
theorem feistelRound_congr (F : Word → Word → Word) (k : Word) {w w' : Word} {lb rb : Nat}
    (hsum : lb + rb ≤ 64) (hright : w.toNat % 2 ^ rb = w'.toNat % 2 ^ rb)
    (hleft : w.toNat / 2 ^ rb % 2 ^ min lb rb = w'.toNat / 2 ^ rb % 2 ^ min lb rb) :
    feistelRound F w lb rb k = feistelRound F w' lb rb k := by
  have hrb : rb ≤ 64 := by omega
  have hmask : w &&& mask rb = w' &&& mask rb :=
    BitVec.eq_of_toNat_eq (by rw [and_mask_toNat w hrb, and_mask_toNat w' hrb, hright])
  apply BitVec.eq_of_toNat_eq
  rw [feistelRound_toNat_add F w k hsum, feistelRound_toNat_add F w' k hsum, hright, hmask]
  simp only [mod_two_pow_mod_two_pow, Nat.xor_mod_two_pow, hleft, min_self]

/-- A round does not read the bits above its two parts. -/
theorem feistelRound_congr_mod (F : Word → Word → Word) (k : Word) {w w' : Word} {lb rb : Nat}
    (hsum : lb + rb ≤ 64) (h : w.toNat % 2 ^ (lb + rb) = w'.toNat % 2 ^ (lb + rb)) :
    feistelRound F w lb rb k = feistelRound F w' lb rb k := by
  have hparts (v : Word) : v.toNat % 2 ^ rb = v.toNat % 2 ^ (lb + rb) % 2 ^ rb ∧
      v.toNat / 2 ^ rb % 2 ^ lb = v.toNat % 2 ^ (lb + rb) / 2 ^ rb := by
    rw [Nat.pow_add, Nat.mod_mul_left_mod, Nat.mod_mul_left_div_self]
    exact ⟨rfl, rfl⟩
  have hleft : w.toNat / 2 ^ rb % 2 ^ lb = w'.toNat / 2 ^ rb % 2 ^ lb := by
    rw [(hparts w).2, (hparts w').2, h]
  refine feistelRound_congr F k hsum ?_ ?_
  · rw [(hparts w).1, (hparts w').1, h]
  · rw [← mod_two_pow_mod_two_pow, hleft, mod_two_pow_mod_two_pow]

/-- Settles O17: the first round drops the high bits, the last one's value is in the domain, and the
acceptance does not look at X. -/
theorem feistelIgnoresHighBits : Obligations.FeistelIgnoresHighBits := by
  unfold Obligations.FeistelIgnoresHighBits
  refine ⟨fun F lb rb k x y _ _ hsum => ⟨fun hxy => ?_, ?_⟩, fun lb rb s hb hlb hrb hsum => ?_⟩
  · exact congrArg (feistelRounds F lb rb k 3) (feistelRound_congr_mod F k hsum hxy)
  · exact feistelRound_lt F _ k hsum
  · refine ⟨_, exec_idle _ hb, ?_⟩
    rw [actOf_feistel_legal ⟨hlb, hrb, hsum⟩]
    rfl

/-- Settles O18: an injective map of a finite set into itself is a bijection of it. -/
theorem feistelIsBijection : Obligations.FeistelIsBijection := by
  unfold Obligations.FeistelIsBijection
  intro F lb rb k hle _ hsum
  have hfinite : (blocks (lb + rb)).Finite := Set.toFinite _
  exact ⟨(hfinite.injOn_iff_bijOn_of_mapsTo (feistelRound_mapsTo F k hsum)).1
      (feistelRound_injOn F k hle hsum),
    (hfinite.injOn_iff_bijOn_of_mapsTo (feistel4_mapsTo F k hsum)).1 (feistel4_injOn F k hle hsum)⟩

/-- Two blocks that a round with `rb < lb` sends to one: 0, and the lowest bit that it loses. -/
theorem feistelRound_not_injOn (F : Word → Word → Word) (k : Word) {lb rb : Nat} (hlt : rb < lb)
    (hsum : lb + rb ≤ 64) : ¬ Set.InjOn (fun w => feistelRound F w lb rb k) (blocks (lb + rb)) := by
  intro hinj
  obtain ⟨v, hv⟩ : ∃ v : Word, v.toNat = 2 ^ rb * 2 ^ rb :=
    ⟨BitVec.twoPow 64 (rb + rb), by rw [← Nat.pow_add]; exact BitVec.toNat_twoPow_of_lt (by omega)⟩
  have hv0 : v ≠ 0 := fun h0 => by simp [h0] at hv
  have hmem : v ∈ blocks (lb + rb) := by
    show v.toNat < _
    rw [hv, ← Nat.pow_add]
    exact Nat.pow_lt_pow_right Nat.one_lt_two (by omega)
  refine hv0 (hinj hmem (Nat.two_pow_pos _) (feistelRound_congr F k hsum ?_ ?_))
  · simp [hv]
  · simp [hv, Nat.min_eq_right hlt.le]

/-- Settles O19: a round drops what `feistelRound_congr` does not ask for. -/
theorem wideLeftRoundLosesBits : Obligations.WideLeftRoundLosesBits := by
  unfold Obligations.WideLeftRoundLosesBits
  refine ⟨fun F lb rb k _ hlt hsum => ⟨fun w w' hright hleft => ?_, feistelRound_not_injOn F k hlt hsum⟩,
    fun k x hx => ?_⟩
  · exact feistelRound_congr F k hsum hright (by rwa [Nat.min_eq_right hlt.le])
  · have hall : ∀ n < 16, feistel4 (fun _ _ => 0) (BitVec.ofNat 64 n) 3 1 0 = 0 := by decide
    have hx := hall x.toNat hx
    rwa [BitVec.ofNat_toNat, BitVec.setWidth_eq] at hx

end Sys2Proof.Machine
end

/-! # A round's halves and the inverse round (42_feistel.md R143, R150, R151, R153) -/

section
namespace Sys2Proof.Machine

theorem and_mask_eq_self {b : Nat} (hb : b ≤ 64) {v : Word} (h : v.toNat < 2 ^ b) : v &&& mask b = v :=
  BitVec.eq_of_toNat_eq (by rw [and_mask_toNat v hb, Nat.mod_eq_of_lt h])

theorem and_mask_toNat_lt {b : Nat} (hb : b ≤ 64) (v : Word) : (v &&& mask b).toNat < 2 ^ b := by
  rw [and_mask_toNat v hb]
  exact Nat.mod_lt _ (Nat.two_pow_pos b)

/-- The left part after it has been mixed with `ROUND_F` of the right part (R141). -/
def mixedHalf (F : Word → Word → Word) (w k : Word) (lb rb : Nat) : Word :=
  ((w >>> rb &&& mask lb) ^^^ F k (w &&& mask rb)) &&& mask lb

section halves
variable (F : Word → Word → Word) (w k : Word) {lb rb : Nat}

/-- For `lb ≤ rb` no bit of the mixed left part is cut off. -/
theorem feistelRound_eq_or (hle : lb ≤ rb) (hsum : lb + rb ≤ 64) :
    feistelRound F w lb rb k = (w &&& mask rb) <<< lb ||| mixedHalf F w k lb rb := by
  have hlt : (mixedHalf F w k lb rb).toNat < 2 ^ rb :=
    (and_mask_toNat_lt (by omega) _).trans_le (Nat.pow_le_pow_right Nat.two_pos hle)
  exact congrArg (_ ||| ·) (and_mask_eq_self (by omega) hlt)

theorem feistelRound_ushiftRight (hsum : lb + rb ≤ 64) :
    feistelRound F w lb rb k >>> lb = w &&& mask rb := by
  apply BitVec.eq_of_toNat_eq
  rw [ushiftRight_toNat, feistelRound_div F w k hsum, and_mask_toNat w (by omega)]

theorem feistelRound_and_mask (hle : lb ≤ rb) (hsum : lb + rb ≤ 64) :
    feistelRound F w lb rb k &&& mask lb = mixedHalf F w k lb rb := by
  have hlb : lb ≤ 64 := by omega
  apply BitVec.eq_of_toNat_eq
  rw [and_mask_toNat _ hlb, feistelRound_mod F w k hle hsum, mixedHalf, and_mask_toNat _ hlb,
    BitVec.toNat_xor, and_mask_toNat _ hlb, ushiftRight_toNat, Nat.xor_mod_two_pow, Nat.mod_mod]

/-- Mixing twice with the same value gives the left part back. -/
theorem xor_mask_xor_mask (l f m : Word) : ((((l &&& m) ^^^ f) &&& m) ^^^ f) &&& m = l &&& m := by
  ext i hi
  simp only [BitVec.getElem_and, BitVec.getElem_xor]
  cases l[i] <;> cases f[i] <;> cases m[i] <;> rfl

/-- A block is its left part above its right part. -/
theorem ushiftRight_or_mask (hrb : rb ≤ 64) : (w >>> rb) <<< rb ||| (w &&& mask rb) = w := by
  have hle : w.toNat / 2 ^ rb * 2 ^ rb ≤ w.toNat := Nat.div_mul_le_self _ _
  apply BitVec.eq_of_toNat_eq
  rw [BitVec.toNat_or, BitVec.toNat_shiftLeft, ushiftRight_toNat, and_mask_toNat w hrb, Nat.shiftLeft_eq,
    Nat.mod_eq_of_lt (hle.trans_lt w.isLt), Nat.mul_comm,
    ← Nat.two_pow_add_eq_or_of_lt (Nat.mod_lt _ (Nat.two_pow_pos rb)), Nat.div_add_mod]

theorem ushiftRight_and_mask (hsum : lb + rb ≤ 64) (hw : w.toNat < 2 ^ (lb + rb)) :
    w >>> rb &&& mask lb = w >>> rb := by
  refine and_mask_eq_self (by omega) ?_
  rw [ushiftRight_toNat]
  exact Nat.div_lt_of_lt_mul (by rwa [← Nat.pow_add, Nat.add_comm])

/-! ## The inverse round -/

theorem feistelRoundInv_feistelRound (hle : lb ≤ rb) (hsum : lb + rb ≤ 64)
    (hw : w.toNat < 2 ^ (lb + rb)) :
    feistelRoundInv F (feistelRound F w lb rb k) lb rb k = w := by
  simp only [feistelRoundInv]
  rw [feistelRound_ushiftRight F w k hsum, feistelRound_and_mask F w k hle hsum, mixedHalf,
    xor_mask_xor_mask, ushiftRight_and_mask w hsum hw, ushiftRight_or_mask w (by omega)]

/-- Inverse rounds undo as many rounds, the last one first. -/
theorem feistelRoundsInv_feistelRounds (hle : lb ≤ rb) (hsum : lb + rb ≤ 64)
    (hw : w.toNat < 2 ^ (lb + rb)) (m : Nat) :
    feistelRoundsInv F lb rb k m (feistelRounds F lb rb k m w) = w := by
  have hmem (m : Nat) : (feistelRounds F lb rb k m w).toNat < 2 ^ (lb + rb) := by
    cases m with
    | zero => exact hw
    | succ m => rw [feistelRounds_add]; exact feistelRound_lt F _ k hsum
  induction m with
  | zero => rfl
  | succ m ih =>
    have hlast : feistelRounds F lb rb k (m + 1) w =
        feistelRound F (feistelRounds F lb rb k m w) lb rb k := feistelRounds_add F lb rb k m 1 w
    rw [hlast, feistelRoundsInv, feistelRoundInv_feistelRound F _ k hle hsum (hmem m), ih]

end halves

/-- Settles O20: the inverse round undoes each round, the last one first. -/
theorem inverseRoundUndoesRound : Obligations.InverseRoundUndoesRound := by
  unfold Obligations.InverseRoundUndoesRound
  exact fun F lb rb k w hle _ hsum hw => ⟨feistelRoundInv_feistelRound F w k hle hsum hw,
    feistelRoundsInv_feistelRounds F w k hle hsum hw 4⟩

/-- For `lb ≤ rb` the next left part is the top of the right part, which is short enough as it is. -/
theorem feistelRound_left (F : Word → Word → Word) (w k : Word) {lb rb : Nat} (hle : lb ≤ rb)
    (hsum : lb + rb ≤ 64) :
    feistelRound F w lb rb k >>> rb &&& mask lb = (w &&& mask rb) >>> (rb - lb) := by
  rw [ushiftRight_and_mask _ hsum (feistelRound_lt F w k hsum),
    ← feistelRound_ushiftRight F w k hsum, ← BitVec.shiftRight_add, Nat.add_sub_cancel' hle]

/-- Settles O21: a round is the right part above the mixed left part, read at the two widths. -/
theorem roundReassemblesHalves : Obligations.RoundReassemblesHalves := by
  unfold Obligations.RoundReassemblesHalves
  rintro F lb rb k w l r t - - hsum rfl rfl rfl
  constructor
  · rintro rfl
    rw [feistelRound_ushiftRight F w k hsum, BitVec.and_assoc, BitVec.and_self]
    exact ⟨rfl, feistelRound_and_mask F w k le_rfl hsum⟩
  · intro hlt
    rw [feistelRound_left F w k hlt.le hsum, feistelRound_eq_or F w k hlt.le hsum]
    exact ⟨rfl, rfl⟩

/-- Settles O23: the left part is empty, so only the unmoved right part is left. -/
theorem zeroLeftWidthRound : Obligations.ZeroLeftWidthRound := by
  unfold Obligations.ZeroLeftWidthRound
  intro F rb k w hrb
  have hround (b : Nat) : feistelRound F w 0 b k = w &&& mask b := by simp [feistelRound, mask]
  refine ⟨hround rb, fun hw => ?_, ?_⟩
  · rw [hround, and_mask_eq_self (by omega) hw]
  · rw [hround]
    exact BitVec.and_zero

end Sys2Proof.Machine
end

/-! # FEISTEL4 without ROUND_F (42_feistel.md R152) -/

section
namespace Sys2Proof.Machine

/-! ## Rotations of `b` bits -/

section rotations
variable {b : Nat} (v : BitVec b)

/-- A rotation as integer arithmetic: what goes up, without the top bits, and they come in below. -/
theorem toNat_rotateLeft_eq_add (hb : 0 < b) (c : Nat) :
    (v.rotateLeft c).toNat =
      v.toNat * 2 ^ (c % b) % 2 ^ b + v.toNat / 2 ^ (b - c % b) := by
  have hc : c % b < b := Nat.mod_lt c hb
  have hpow : 2 ^ b = 2 ^ (b - c % b) * 2 ^ (c % b) := by
    rw [← Nat.pow_add, Nat.sub_add_cancel hc.le]
  have hlow : v.toNat / 2 ^ (b - c % b) < 2 ^ (c % b) := Nat.div_lt_of_lt_mul (hpow ▸ v.isLt)
  rw [BitVec.toNat_rotateLeft, Nat.shiftLeft_eq, Nat.shiftRight_eq_div_pow, hpow, Nat.mul_mod_mul_right,
    Nat.mul_comm, Nat.two_pow_add_eq_or_of_lt hlow]

theorem rotateLeft_rotateLeft (c d : Nat) : (v.rotateLeft c).rotateLeft d = v.rotateLeft (c + d) := by
  ext i hi
  have hc : c % b < b := Nat.mod_lt c (by omega)
  have hd : d % b < b := Nat.mod_lt d (by omega)
  have hadd := Nat.add_mod_eq_ite (m := c) (n := d) (k := b)
  simp only [BitVec.getElem_rotateLeft, hadd]
  split_ifs <;> congr 1 <;> omega

end rotations

/-! ## Rounds with `ROUND_F = 0` -/

section zero
variable (k : Word) {w : Word} {lb rb : Nat}

/-- A round only moves the two parts past each other, which rotates the block. -/
theorem feistelRound_zero (hlb : 1 ≤ lb) (hle : lb ≤ rb) (hsum : lb + rb ≤ 64)
    (hw : w.toNat < 2 ^ (lb + rb)) :
    feistelRound (fun _ _ => 0) w lb rb k =
      ((w.setWidth (lb + rb)).rotateLeft lb).setWidth 64 := by
  have hleft : w.toNat / 2 ^ rb < 2 ^ lb :=
    Nat.div_lt_of_lt_mul (by rwa [← Nat.pow_add, Nat.add_comm])
  have hleft' : w.toNat / 2 ^ rb < 2 ^ rb := hleft.trans_le (Nat.pow_le_pow_right Nat.two_pos hle)
  apply BitVec.eq_of_toNat_eq
  rw [feistelRound_toNat_add _ w k hsum, BitVec.toNat_setWidth_of_le hsum,
    toNat_rotateLeft_eq_add _ (by omega), BitVec.toNat_setWidth, Nat.mod_eq_of_lt hw,
    Nat.mod_eq_of_lt (show lb < lb + rb by omega), Nat.add_sub_cancel_left, Nat.add_comm lb rb,
    Nat.pow_add, Nat.mul_mod_mul_right]
  simp [Nat.mod_eq_of_lt hleft, Nat.mod_eq_of_lt hleft']

/-- So `m` rounds rotate it by `m * lb` places. -/
theorem feistelRounds_zero (hlb : 1 ≤ lb) (hle : lb ≤ rb) (hsum : lb + rb ≤ 64)
    (hw : w.toNat < 2 ^ (lb + rb)) (m : Nat) :
    feistelRounds (fun _ _ => 0) lb rb k m w =
      ((w.setWidth (lb + rb)).rotateLeft (m * lb)).setWidth 64 := by
  induction m generalizing w with
  | zero =>
    apply BitVec.eq_of_toNat_eq
    rw [BitVec.toNat_setWidth_of_le hsum, toNat_rotateLeft_eq_add _ (by omega), BitVec.toNat_setWidth]
    simp [feistelRounds, Nat.mod_eq_of_lt hw, Nat.div_eq_of_lt hw]
  | succ m ih =>
    rw [feistelRounds, ih (feistelRound_lt _ w k hsum), feistelRound_zero k hlb hle hsum hw,
      BitVec.setWidth_setWidth_of_le _ hsum, BitVec.setWidth_eq, rotateLeft_rotateLeft, Nat.succ_mul,
      Nat.add_comm lb (m * lb)]

theorem feistelRounds_zero_toNat (hlb : 1 ≤ lb) (hle : lb ≤ rb) (hsum : lb + rb ≤ 64)
    (hw : w.toNat < 2 ^ (lb + rb)) (m : Nat) :
    (feistelRounds (fun _ _ => 0) lb rb k m w).toNat =
      w.toNat * 2 ^ (m * lb % (lb + rb)) % 2 ^ (lb + rb) +
        w.toNat / 2 ^ (lb + rb - m * lb % (lb + rb)) := by
  rw [feistelRounds_zero k hlb hle hsum hw, BitVec.toNat_setWidth_of_le hsum,
    toNat_rotateLeft_eq_add _ (by omega), BitVec.toNat_setWidth, Nat.mod_eq_of_lt hw]

end zero

/-- Settles O22: for `lb = rb` four rounds are two full turns. -/
theorem zeroRoundFunctionRotates : Obligations.ZeroRoundFunctionRotates := by
  unfold Obligations.ZeroRoundFunctionRotates
  intro lb rb k w hlb hle hsum hw
  have hrounds := feistelRounds_zero_toNat k hlb hle hsum hw
  refine ⟨?_, fun hlt => ⟨?_, hrounds 4⟩⟩
  · rintro rfl
    have hturns : 4 * lb % (lb + lb) = 0 := Nat.mod_eq_zero_of_dvd ⟨2, by omega⟩
    apply BitVec.eq_of_toNat_eq
    rw [feistel4, hrounds 4, hturns]
    simp [Nat.mod_eq_of_lt hw, Nat.div_eq_of_lt hw]
  · have hone := hrounds 1
    rwa [Nat.one_mul, Nat.mod_eq_of_lt (by omega : lb < lb + rb), Nat.add_sub_cancel_left] at hone

end Sys2Proof.Machine
end

/-! # The domain descriptor (43_cycle_walk.md R170, R171, R181) -/

section
namespace Sys2Proof.Machine

/-- `CLOG2` between two powers of two. -/
theorem clog2_eq_succ {n b : Nat} (h64 : n ≤ 2 ^ 64) (hlt : 2 ^ b < n) (hle : n ≤ 2 ^ (b + 1)) :
    clog2 n = b + 1 := by
  have hupper : clog2 n ≤ b + 1 := (clog2_le_iff h64 _).2 hle
  have hlower : ¬ clog2 n ≤ b := fun h => hlt.not_ge ((clog2_le_iff h64 b).1 h)
  omega

/-- For `n ≥ 2` the power of two below `2^bits` is below `n` too. -/
theorem exists_clog2_eq_succ {n : Nat} (hn : 2 ≤ n) (h64 : n ≤ 2 ^ 64) :
    ∃ b, b ≤ 63 ∧ clog2 n = b + 1 ∧ 2 ^ b < n := by
  have hpos : ¬ clog2 n ≤ 0 := fun h => hn.not_gt (by simpa using (clog2_le_iff h64 0).1 h)
  have hmax : clog2 n ≤ 64 := (clog2_le_iff h64 64).2 h64
  refine ⟨clog2 n - 1, by omega, by omega, ?_⟩
  by_contra! hle
  have := (clog2_le_iff h64 _).2 hle
  omega

/-- The two widths split the bits in halves, the right one taking the odd bit. -/
theorem widths_eq {n b : Nat} (h : clog2 n = b) : widths n = (b / 2, b - b / 2) := h ▸ rfl

theorem descriptor_of_between {n b : Nat} (hb : b ≤ 63) (hlt : 2 ^ b < n) (hle : n ≤ 2 ^ (b + 1)) :
    clog2 n = b + 1 ∧ widths n = ((b + 1) / 2, b + 1 - (b + 1) / 2) := by
  have h := clog2_eq_succ (hle.trans (Nat.pow_le_pow_right Nat.two_pos (by omega))) hlt hle
  exact ⟨h, widths_eq h⟩

/-- Settles O25: the widths are the halves of `bits`, and each row of the table lies between two powers of
two, but for its first. -/
theorem descriptorRanges : Obligations.DescriptorRanges := by
  unfold Obligations.DescriptorRanges
  constructor
  · intro n h1 h64
    have hbits : clog2 n ≤ 64 := (clog2_le_iff h64.le 64).2 h64.le
    have hone : clog2 n ≤ 1 ↔ n ≤ 2 := clog2_le_iff h64.le 1
    have hzero : clog2 n ≤ 0 ↔ n ≤ 1 := clog2_le_iff h64.le 0
    simp only [widths_eq rfl]
    omega
  · intro n
    refine ⟨?_, ?_, ?_, ?_, ?_, ?_, ?_, ?_, ?_⟩
    · rintro rfl
      have h : clog2 1 = 0 := clog2_two_pow (k := 0) (by decide)
      exact ⟨h, widths_eq h⟩
    · exact fun h => descriptor_of_between (b := 0) (by decide) (by omega) (by omega)
    · exact fun h => descriptor_of_between (b := 1) (by decide) (by omega) (by omega)
    · exact fun h => descriptor_of_between (b := 2) (by decide) (by omega) (by omega)
    · exact fun h => descriptor_of_between (b := 3) (by decide) (by omega) (by omega)
    · exact fun h => descriptor_of_between (b := 4) (by decide) (by omega) (by omega)
    · exact fun h => descriptor_of_between (b := 16) (by decide) (by omega) (by omega)
    · exact fun h => descriptor_of_between (b := 62) (by decide) (by omega) (by omega)
    · exact fun h => descriptor_of_between (b := 63) (by decide) (by omega) (by omega)

end Sys2Proof.Machine
end

/-! # FPEWALK and the first landing of the walk (43_cycle_walk.md R180 to R184) -/

section
namespace Sys2Proof.Machine

/-- The `i`-th application of FEISTEL4 to `x` is the first one to land below `n` (R181). -/
structure FirstLanding (F : Word → Word → Word) (lb rb : Nat) (k : Word) (n : Nat) (x : Word) (i : Nat) :
    Prop where
  pos : 1 ≤ i
  lands : (feistel4Iter F lb rb k i x).toNat < n
  outside : ∀ j, 1 ≤ j → j < i → n ≤ (feistel4Iter F lb rb k j x).toNat

section landings
variable {F : Word → Word → Word} {lb rb : Nat} {k : Word}

/-- The first landing is the least one. -/
theorem exists_firstLanding_le {n i : Nat} {x : Word} (h1 : 1 ≤ i)
    (hland : (feistel4Iter F lb rb k i x).toNat < n) :
    ∃ j, j ≤ i ∧ FirstLanding F lb rb k n x j := by
  classical
  have hex : ∃ j, 1 ≤ j ∧ (feistel4Iter F lb rb k j x).toNat < n := ⟨i, h1, hland⟩
  obtain ⟨hpos, hlands⟩ := Nat.find_spec hex
  refine ⟨Nat.find hex, Nat.find_min' hex ⟨h1, hland⟩, hpos, hlands, fun j hj hlt => ?_⟩
  by_contra! hin
  exact Nat.find_min hex hlt ⟨hj, hin⟩

theorem firstLanding_one {n : Nat} {x : Word} (h : (feistel4 F x lb rb k).toNat < n) :
    FirstLanding F lb rb k n x 1 :=
  ⟨le_rfl, h, fun _ h1 hlt => absurd hlt h1.not_gt⟩

/-- An application at or above `n` only puts the first landing off. -/
theorem firstLanding_succ_iff {n i : Nat} {x : Word} (hout : n ≤ (feistel4 F x lb rb k).toNat) :
    FirstLanding F lb rb k n x (i + 1) ↔ FirstLanding F lb rb k n (feistel4 F x lb rb k) i := by
  constructor
  · rintro ⟨-, hlands, houtside⟩
    refine ⟨?_, hlands, fun j h1 hlt => houtside (j + 1) (by omega) (by omega)⟩
    by_contra! h0
    obtain rfl : i = 0 := by omega
    exact hout.not_gt hlands
  · rintro ⟨h1, hlands, houtside⟩
    refine ⟨by omega, hlands, fun j hj hlt => ?_⟩
    obtain ⟨j, rfl⟩ := Nat.exists_eq_add_of_le' hj
    obtain rfl | hpos := Nat.eq_zero_or_pos j
    · exact hout
    · exact houtside j hpos (by omega)

/-- Walks from `x` and `y` below `n` whose first landings are one block begin at one block: `x` lies on the
walk from `y`, and below `n`, which no block before the landing is. -/
theorem FirstLanding.start_eq_of_le {n i j : Nat} {x y : Word} (hi : FirstLanding F lb rb k n x i)
    (hj : FirstLanding F lb rb k n y j) (hij : i ≤ j) (hle : lb ≤ rb) (hsum : lb + rb ≤ 64)
    (hn : n ≤ 2 ^ (lb + rb)) (hx : x.toNat < n) (hy : y.toNat < n)
    (h : feistel4Iter F lb rb k i x = feistel4Iter F lb rb k j y) : x = y := by
  have hmaps := feistel4_mapsTo F k hsum
  have hback : x = feistel4Iter F lb rb k (j - i) y := by
    simp only [feistel4Iter_eq_iterate] at h ⊢
    refine (feistel4_injOn F k hle hsum).iterate hmaps i (hx.trans_le hn)
      (hmaps.iterate (j - i) (hy.trans_le hn)) ?_
    rw [h, ← Function.iterate_add_apply, Nat.add_sub_cancel' hij]
  have hsame : j - i = 0 := by
    have := hi.pos
    by_contra hpos
    exact (hj.outside (j - i) (by omega) (by omega)).not_gt (hback ▸ hx)
  rw [hback, hsame, feistel4Iter]

theorem FirstLanding.start_eq {n i j : Nat} {x y : Word} (hi : FirstLanding F lb rb k n x i)
    (hj : FirstLanding F lb rb k n y j) (hle : lb ≤ rb) (hsum : lb + rb ≤ 64)
    (hn : n ≤ 2 ^ (lb + rb)) (hx : x.toNat < n) (hy : y.toNat < n)
    (h : feistel4Iter F lb rb k i x = feistel4Iter F lb rb k j y) : x = y := by
  obtain hij | hji := Nat.le_total i j
  · exact hi.start_eq_of_le hj hij hle hsum hn hx hy h
  · exact (hj.start_eq_of_le hi hji hle hsum hn hy hx h.symm).symm

end landings

/-! ## The loop of FPEWALK -/

section loop
variable {F : Word → Word → Word} {n k limit : Word} {lb rb : Nat}

/-- Counting one application and then `i` more. -/
theorem count_succ (it : Word) (i : Nat) : it + 1 + BitVec.ofNat 64 i = it + BitVec.ofNat 64 (i + 1) := by
  rw [BitVec.add_assoc, Nat.add_comm i, BitVec.ofNat_add, BitVec.ofNat_eq_ofNat]

/-- A walk that succeeds reports its first landing. -/
theorem walkLoop_eq_ok {fuel : Nat} {w it v it' : Word}
    (h : walkLoop F n k limit lb rb fuel w it = some (.ok v it')) :
    ∃ i, i ≤ fuel ∧ FirstLanding F lb rb k n.toNat w i ∧ v = feistel4Iter F lb rb k i w ∧
      it' = it + BitVec.ofNat 64 i := by
  induction fuel generalizing w it with
  | zero => cases h
  | succ fuel ih =>
    rw [walkLoop] at h
    split at h
    · next hin =>
      cases h
      exact ⟨1, by omega, firstLanding_one hin, rfl, rfl⟩
    · next hout =>
      split at h
      · cases h
      · obtain ⟨i, hi, hfirst, hv, hit⟩ := ih h
        refine ⟨i + 1, by omega, (firstLanding_succ_iff (BitVec.not_lt.1 hout)).2 hfirst, hv, ?_⟩
        rw [hit, count_succ]

/-- A first application below `n` ends the walk, whatever the cap (R177). -/
theorem walkLoop_one {w : Word} (fuel : Nat) (it : Word) (h : (feistel4 F w lb rb k).toNat < n.toNat) :
    walkLoop F n k limit lb rb (fuel + 1) w it = some (.ok (feistel4 F w lb rb k) (it + 1)) := by
  rw [walkLoop]
  exact if_pos (BitVec.lt_def.2 h)

/-- With no cap a walk reports its first landing, if that lies within the loop's bound. -/
theorem walkLoop_noCap {fuel i : Nat} {w : Word} (it : Word) (hi : i ≤ fuel)
    (h : FirstLanding F lb rb k n.toNat w i) :
    walkLoop F n k 0 lb rb fuel w it =
      some (.ok (feistel4Iter F lb rb k i w) (it + BitVec.ofNat 64 i)) := by
  induction fuel generalizing i w it with
  | zero => exact absurd (h.pos.trans hi) (by omega)
  | succ fuel ih =>
    obtain ⟨i, rfl⟩ := Nat.exists_eq_add_of_le' h.pos
    obtain rfl | hpos := Nat.eq_zero_or_pos i
    · exact walkLoop_one fuel it h.lands
    · have hout : n.toNat ≤ (feistel4 F w lb rb k).toNat := h.outside 1 le_rfl (by omega)
      rw [walkLoop, if_neg (BitVec.not_lt.2 (BitVec.le_def.2 hout)), if_neg (by simp),
        ih (it + 1) (by omega) ((firstLanding_succ_iff hout).1 h), count_succ, feistel4Iter]

end loop

/-! ## FPEWALK -/

section fpeWalk
variable {F : Word → Word → Word} {x n k limit : Word}

/-- The walk proper: neither check fails and the domain has more than one element (R174, R180). -/
theorem fpeWalk_eq_walkLoop (hn : 2 ≤ n.toNat) (hx : x.toNat < n.toNat) :
    fpeWalk F x n k limit = walkLoop F n k limit (widths n.toNat).1 (widths n.toNat).2
      (2 ^ clog2 n.toNat - n.toNat + 1) x 0 := by
  have hn0 : n ≠ 0 := by rintro rfl; simp at hn
  have hn1 : n ≠ 1 := by rintro rfl; simp at hn
  rw [fpeWalk, if_neg hn0, if_neg (BitVec.not_le.2 (BitVec.lt_def.2 hx)), if_neg hn1]

theorem fpeWalk_one (hn : n.toNat = 1) (hx : x.toNat < n.toNat) :
    fpeWalk F x n k limit = some (.ok x 0) := by
  have hn1 : n = 1 := BitVec.eq_of_toNat_eq hn
  have hn0 : n ≠ 0 := by rw [hn1]; decide
  rw [fpeWalk, if_neg hn0, if_neg (BitVec.not_le.2 (BitVec.lt_def.2 hx)), if_pos hn1]

/-- An input outside the domain, as every input is for `n = 0`. -/
theorem fpeWalk_outside (hx : n.toNat ≤ x.toNat) : ∃ c, fpeWalk F x n k limit = some (.error c 0) := by
  unfold fpeWalk
  split
  · exact ⟨_, rfl⟩
  · rw [if_pos (BitVec.le_def.2 hx)]
    exact ⟨_, rfl⟩

/-- Where an outcome of FPEWALK can come from: a failed check, the short circuit, or the walk. -/
theorem fpeWalk_cases {o : WalkOutcome} (h : fpeWalk F x n k limit = some o) :
    (∃ c, o = .error c 0) ∨
    (x.toNat < n.toNat ∧ n.toNat = 1 ∧ o = .ok x 0) ∨
    (x.toNat < n.toNat ∧ 2 ≤ n.toNat ∧
      walkLoop F n k limit (widths n.toNat).1 (widths n.toNat).2
        (2 ^ clog2 n.toNat - n.toNat + 1) x 0 = some o) := by
  obtain hx | hx := Nat.lt_or_ge x.toNat n.toNat
  · obtain hn | hn : n.toNat = 1 ∨ 2 ≤ n.toNat := by omega
    · rw [fpeWalk_one hn hx] at h
      cases h
      exact .inr (.inl ⟨hx, hn, rfl⟩)
    · exact .inr (.inr ⟨hx, hn, fpeWalk_eq_walkLoop hn hx ▸ h⟩)
  · obtain ⟨c, hc⟩ := fpeWalk_outside (F := F) (k := k) (limit := limit) hx
    rw [hc] at h
    cases h
    exact .inl ⟨c, rfl⟩

/-- The first landing lies within the bound of R181. -/
theorem exists_firstLanding (F : Word → Word → Word) (k : Word) (hx : x.toNat < n.toNat) :
    ∃ i, i ≤ 2 ^ clog2 n.toNat - n.toNat + 1 ∧
      FirstLanding F (widths n.toNat).1 (widths n.toNat).2 k n.toNat x i := by
  obtain ⟨i, h1, hi, hland⟩ := exists_feistel4Iter_lt F k hx
  obtain ⟨j, hj, hfirst⟩ := exists_firstLanding_le h1 hland
  exact ⟨j, hj.trans hi, hfirst⟩

/-- Settles O26: the walk's first landing, and the bound from the power of two below `n`. -/
theorem walkEndsWithinBound : Obligations.WalkEndsWithinBound := by
  unfold Obligations.WalkEndsWithinBound
  refine ⟨fun F k x n _ h64 hx => ?first, fun n hn h64 => ?bound, ?largest⟩
  case first =>
    have hword : (BitVec.ofNat 64 n).toNat = n := Nat.mod_eq_of_lt h64
    obtain ⟨i, hi, hfirst⟩ := exists_firstLanding (n := BitVec.ofNat 64 n) F k (hword.symm ▸ hx)
    rw [hword] at hi hfirst
    exact ⟨i, hfirst.pos, hi, hfirst.lands, hfirst.outside⟩
  case bound =>
    obtain ⟨b, hb, hbits, hlt⟩ := exists_clog2_eq_succ hn h64.le
    have hpow : 2 ^ b ≤ 2 ^ 63 := Nat.pow_le_pow_right Nat.two_pos hb
    rw [hbits, Nat.pow_succ]
    omega
  case largest => rw [clog2_two_pow_add_one le_rfl]; norm_num

/-- An input that succeeds is in the domain, and its RESULT and ITER are the first landing's. -/
theorem fpeWalk_eq_ok {v it : Word} (h : fpeWalk F x n k limit = some (.ok v it)) :
    x.toNat < n.toNat ∧
    ((n.toNat = 1 ∧ v = x ∧ it = 0) ∨
      (2 ≤ n.toNat ∧ ∃ i, i ≤ 2 ^ clog2 n.toNat - n.toNat + 1 ∧
        FirstLanding F (widths n.toNat).1 (widths n.toNat).2 k n.toNat x i ∧
        v = feistel4Iter F (widths n.toNat).1 (widths n.toNat).2 k i x ∧
        it = 0 + BitVec.ofNat 64 i)) := by
  obtain ⟨c, ho⟩ | ⟨hx, hn, ho⟩ | ⟨hx, hn, hwalk⟩ := fpeWalk_cases h
  · cases ho
  · cases ho
    exact ⟨hx, .inl ⟨hn, rfl, rfl⟩⟩
  · exact ⟨hx, .inr ⟨hn, walkLoop_eq_ok hwalk⟩⟩

/-- With no cap every input of the domain succeeds. -/
theorem exists_fpeWalk_noCap (F : Word → Word → Word) (k : Word) (hx : x.toNat < n.toNat) :
    ∃ v it, fpeWalk F x n k 0 = some (.ok v it) := by
  obtain hn | hn : n.toNat = 1 ∨ 2 ≤ n.toNat := by omega
  · exact ⟨x, 0, fpeWalk_one hn hx⟩
  · obtain ⟨i, hi, hfirst⟩ := exists_firstLanding F k hx
    exact ⟨_, _, (fpeWalk_eq_walkLoop hn hx).trans (walkLoop_noCap 0 hi hfirst)⟩

/-- An input that succeeds under a cap gives what it gives with none. -/
theorem fpeWalk_noCap {v it : Word} (h : fpeWalk F x n k limit = some (.ok v it)) :
    fpeWalk F x n k 0 = some (.ok v it) := by
  obtain ⟨hx, ⟨hn, rfl, rfl⟩ | ⟨hn, i, hi, hfirst, rfl, rfl⟩⟩ := fpeWalk_eq_ok h
  · exact fpeWalk_one hn hx
  · rw [fpeWalk_eq_walkLoop hn hx, walkLoop_noCap 0 hi hfirst]

theorem fpeWalk_result_lt {v it : Word} (h : fpeWalk F x n k limit = some (.ok v it)) :
    v.toNat < n.toNat := by
  obtain ⟨hx, ⟨-, rfl, -⟩ | ⟨-, i, -, hfirst, rfl, -⟩⟩ := fpeWalk_eq_ok h
  · exact hx
  · exact hfirst.lands

/-- Inputs that succeed with one RESULT are equal. -/
theorem fpeWalk_inj {y v it it' : Word} (h : fpeWalk F x n k limit = some (.ok v it))
    (h' : fpeWalk F y n k limit = some (.ok v it')) : x = y := by
  obtain ⟨hx, hxv⟩ := fpeWalk_eq_ok h
  obtain ⟨hy, hyv⟩ := fpeWalk_eq_ok h'
  obtain hn | hn : n.toNat = 1 ∨ 2 ≤ n.toNat := by omega
  · exact BitVec.eq_of_toNat_eq (by omega)
  · obtain ⟨-, i, -, hi, hvi, -⟩ := hxv.resolve_left (by omega)
    obtain ⟨-, j, -, hj, hvj, -⟩ := hyv.resolve_left (by omega)
    have hsum := widths_sum n.toNat
    exact hi.start_eq hj (widths_le _) (hsum.trans_le (clog2_le_64 n)) (hsum ▸ le_two_pow_clog2 n)
      hx hy (hvi.symm.trans hvj)

/-- Settles O27: with no cap RESULT is an injective map of the finite domain into itself. -/
theorem fpeIsBijection : Obligations.FpeIsBijection := by
  unfold Obligations.FpeIsBijection
  intro F n k _
  refine ⟨?bijection, fun _ _ _ _ _ => fpeWalk_noCap, fun _ _ _ _ _ _ _ => fpeWalk_inj⟩
  have hdomain (x : Word) : ∃ v, x.toNat < n.toNat → ∃ it, fpeWalk F x n k 0 = some (.ok v it) := by
    by_cases hx : x.toNat < n.toNat
    · obtain ⟨v, it, h⟩ := exists_fpeWalk_noCap F k hx
      exact ⟨v, fun _ => ⟨it, h⟩⟩
    · exact ⟨x, fun h => absurd h hx⟩
  choose f hf using hdomain
  have hmaps : Set.MapsTo f {x | x.toNat < n.toNat} {x | x.toNat < n.toNat} := fun x hx =>
    have ⟨_, h⟩ := hf x hx
    fpeWalk_result_lt h
  have hinj : Set.InjOn f {x | x.toNat < n.toNat} := fun x hx y hy hxy =>
    have ⟨_, h⟩ := hf x hx
    have ⟨_, h'⟩ := hf y hy
    fpeWalk_inj h (hxy ▸ h')
  exact ⟨f, hf, ((Set.toFinite _).injOn_iff_bijOn_of_mapsTo hmaps).1 hinj⟩

/-- Settles O29: the domain is the whole of the blocks, so an application cannot leave it. -/
theorem powerOfTwoTakesOneApplication : Obligations.PowerOfTwoTakesOneApplication := by
  unfold Obligations.PowerOfTwoTakesOneApplication
  intro F b k limit x hb1 hb63 hx
  have hn : (BitVec.ofNat 64 (2 ^ b)).toNat = 2 ^ b :=
    Nat.mod_eq_of_lt (Nat.pow_lt_pow_right Nat.one_lt_two (by omega))
  have hsum : b / 2 + (b - b / 2) = b := by omega
  have hland : (feistel4 F x (b / 2) (b - b / 2) k).toNat < 2 ^ b := by
    have := feistelRound_lt F (feistelRounds F (b / 2) (b - b / 2) k 3 x) k (hsum.trans_le (by omega))
    rwa [hsum] at this
  have htwo : 2 ^ 1 ≤ 2 ^ b := Nat.pow_le_pow_right Nat.two_pos hb1
  rw [fpeWalk_eq_walkLoop (by rw [hn]; exact htwo) (by rw [hn]; exact hx), hn,
    widths_eq (clog2_two_pow (by omega)), walkLoop_one _ _ (by rw [hn]; exact hland), zero_add]

/-- Settles O28: the domain of one bit has no left part, so each of the four rounds keeps the block. -/
theorem domainTwoIsIdentity : Obligations.DomainTwoIsIdentity := by
  unfold Obligations.DomainTwoIsIdentity
  intro F k limit x hx
  have hround : feistelRound F x 0 1 k = x := (zeroLeftWidthRound F 1 k x (by decide)).2.1 hx
  have hfour : feistel4 F x 0 1 k = x := by simp only [feistel4, feistelRounds, hround]
  have hone := powerOfTwoTakesOneApplication F 1 k limit x le_rfl (by decide) hx
  rw [hfour] at hone
  exact hone

end fpeWalk

end Sys2Proof.Machine
end

/-! # FPE from its CMD write to its completion (43_cycle_walk.md R174 to R187) -/

section
namespace Sys2Proof.Machine

/-! ## Acceptance (R174) -/

section acceptance
variable {s : State}

theorem actOf_fpe_nZero (hn : s.regs.n.toNat = 0) :
    actOf .fpe s = completeError .nZero 0 (accept s) :=
  if_pos (BitVec.eq_of_toNat_eq hn)

theorem actOf_fpe_inputRange (hn : s.regs.n.toNat ≠ 0) (hx : s.regs.n.toNat ≤ s.regs.x.toNat) :
    actOf .fpe s = completeError .inputRange 0 (accept s) := by
  have hn0 : ¬ s.regs.n = 0 := fun h => hn (by rw [h]; rfl)
  exact (if_neg hn0).trans (if_pos (BitVec.le_def.2 hx))

theorem actOf_fpe_ident (hn : s.regs.n.toNat = 1) (hx : s.regs.x.toNat < s.regs.n.toNat) :
    actOf .fpe s = startRunning .fpe .ident (accept s) := by
  have hn0 : ¬ s.regs.n = 0 := fun h => by simp [h] at hn
  have hx : ¬ s.regs.n ≤ s.regs.x := BitVec.not_le.2 (BitVec.lt_def.2 hx)
  exact (if_neg hn0).trans ((if_neg hx).trans (if_pos (BitVec.eq_of_toNat_eq hn)))

theorem actOf_fpe_rounds (hn : 2 ≤ s.regs.n.toNat) (hx : s.regs.x.toNat < s.regs.n.toNat) :
    actOf .fpe s = startRunning .fpe .rounds
      (loadRounds (widths s.regs.n.toNat).1 (widths s.regs.n.toNat).2 (accept s)) := by
  have hn0 : ¬ s.regs.n = 0 := fun h => by simp [h] at hn
  have hn1 : ¬ s.regs.n = 1 := fun h => by simp [h] at hn
  have hx : ¬ s.regs.n ≤ s.regs.x := BitVec.not_le.2 (BitVec.lt_def.2 hx)
  exact (if_neg hn0).trans ((if_neg hx).trans (if_neg hn1))

end acceptance

/-- Settles O12: one clause for each way in which the acceptance can end. -/
theorem fpeAcceptance : Obligations.FpeAcceptance := by
  unfold Obligations.FpeAcceptance
  intro s hb
  rw [exec_idle .fpe hb]
  refine ⟨fun hn => ?nZero, fun hn hx => ?inputRange, fun hn hx => ?ident, fun hn hx => ?rounds⟩
  case nZero => rw [actOf_fpe_nZero hn]; rfl
  case inputRange => rw [actOf_fpe_inputRange hn hx]; rfl
  case ident => rw [actOf_fpe_ident hn (by omega)]; rfl
  case rounds => rw [actOf_fpe_rounds hn hx]; rfl

/-! ## The engine's steps (R175, R177) -/

theorem engineStep_ident (P : Params) {s : State} (hf : s.eng.fsm = .ident) :
    engineStep P s = completeOk s.eng.x 0 s := by
  simp only [engineStep, hf, stepIdent]

/-- Settles O13: the step of IDENT, and the acceptance that leads to it. -/
theorem degenerateDomainIsIdentity : Obligations.DegenerateDomainIsIdentity := by
  unfold Obligations.DegenerateDomainIsIdentity
  refine ⟨fun P s hf => engineStep_ident P hf, fun P s hb hn hx => ?_⟩
  have hact : actOf .fpe s = startRunning .fpe .ident (accept s) :=
    actOf_fpe_ident (by rw [hn]; rfl) (by rw [hn, hx]; decide)
  refine ⟨_, exec_idle .fpe hb, ?_⟩
  rw [hact, engineStep_ident P rfl]
  exact ⟨rfl, hx, rfl, rfl, rfl⟩

theorem walkCheck_exit {s : State} (hin : s.eng.w.toNat < s.eng.n.toNat) :
    walkCheck s = completeOk s.eng.w s.eng.iter s :=
  if_pos (BitVec.lt_def.2 hin)

theorem walkCheck_exhausted {s : State} (hout : s.eng.n.toNat ≤ s.eng.w.toNat)
    (hlimit : s.eng.limit ≠ 0) (hcap : s.eng.iter = s.eng.limit) :
    walkCheck s = completeError .walkExhausted s.eng.iter s :=
  (if_neg (BitVec.not_lt.2 (BitVec.le_def.2 hout))).trans (if_pos ⟨hlimit, hcap⟩)

theorem walkCheck_continue {s : State} (hout : s.eng.n.toNat ≤ s.eng.w.toNat)
    (hgo : s.eng.limit = 0 ∨ s.eng.iter ≠ s.eng.limit) : walkCheck s = s :=
  (if_neg (BitVec.not_lt.2 (BitVec.le_def.2 hout))).trans
    (if_neg fun ⟨hlimit, hcap⟩ => hgo.elim hlimit (· hcap))

/-- Settles O14: the three ends of the check, on the block after the fourth round. -/
theorem walkCheckStep : Obligations.WalkCheckStep := by
  unfold Obligations.WalkCheckStep
  rintro P s w hf hop hr rfl
  rw [engineStep_rounds hf, stepRound_walk (by omega) (by simp [hop])]
  exact ⟨fun hin => walkCheck_exit hin, fun hout hlimit hcap => walkCheck_exhausted hout hlimit hcap,
    fun hout hgo => walkCheck_continue hout hgo⟩

/-! ## The whole command (R180, R186, R187) -/

/-- A walk is busy before each of the engine turns that its outcome takes. -/
theorem walk_busy {P : Params} {s : State} {o : WalkOutcome} {fuel m : Nat}
    (hf : s.eng.fsm = .rounds) (hop : s.eng.op ≠ .feistel) (hr : s.eng.round = 0)
    (hb : s.regs.status.busy = true)
    (h : walkLoop P.roundF s.eng.n s.eng.k s.eng.limit s.eng.lb s.eng.rb fuel s.eng.w s.eng.iter
      = some o)
    (hm : m < 4 * (o.iter - s.eng.iter).toNat) : (engineSteps P m s).regs.status.busy = true := by
  induction fuel generalizing s m with
  | zero => cases h
  | succ fuel ih =>
    obtain hm3 | hm4 : m ≤ 3 ∨ 4 ≤ m := by omega
    · rw [engineSteps_early P hf (by omega)]
      exact hb
    obtain ⟨m, rfl⟩ := Nat.exists_eq_add_of_le hm4
    rw [engineSteps_add, engineSteps_four P hf hr, if_neg hop]
    have hone : (s.eng.iter + 1 - s.eng.iter).toNat = 1 := by
      rw [add_sub_cancel_left]
      rfl
    rw [walkLoop] at h
    split at h
    · cases h
      exact absurd hm (by rw [WalkOutcome.iter, hone]; omega)
    · next hout =>
      split at h
      · cases h
        exact absurd hm (by rw [WalkOutcome.iter, hone]; omega)
      · next hcap =>
        rw [walkCheck_continue (s := applied P s) (BitVec.not_lt.1 hout)
          ((not_and_or.1 hcap).imp_left not_not.1)]
        refine ih (s := applied P s) hf hop rfl hb h ?_
        change m < 4 * (o.iter - (s.eng.iter + 1)).toNat
        bv_omega

/-- BUSY is 1 before each of an FPE command's engine turns (R187). -/
theorem fpe_busy {P : Params} {s : State} {o : WalkOutcome} {m : Nat}
    (h : fpeWalk P.roundF s.regs.x s.regs.n s.regs.key s.regs.walkLimit = some o)
    (hm : m < fpeTurns s.regs.n o) : (engineSteps P m (actOf .fpe s)).regs.status.busy = true := by
  obtain ⟨c, rfl⟩ | ⟨hx, hn, rfl⟩ | ⟨hx, hn, hwalk⟩ := fpeWalk_cases h
  · exact absurd hm (Nat.not_lt_zero m)
  · have hone : fpeTurns s.regs.n (.ok s.regs.x 0) = 1 := if_pos (BitVec.eq_of_toNat_eq hn)
    obtain rfl : m = 0 := by omega
    rw [actOf_fpe_ident hn hx]
    rfl
  · have hn1 : s.regs.n ≠ 1 := fun h => by simp [h] at hn
    rw [fpeTurns_eq hn1] at hm
    rw [actOf_fpe_rounds hn hx]
    exact walk_busy rfl nofun rfl rfl hwalk (by exact (BitVec.sub_zero o.iter).symm ▸ hm)

theorem decode_three : decode 0x3 = .ok .fpe := decodeEncodeRoundTrip .fpe rfl

/-- Settles O16: FPEWALK has an outcome for all operands, and the command ends with it. -/
theorem fpeCommandComputesWalk : Obligations.FpeCommandComputesWalk := by
  unfold Obligations.FpeCommandComputesWalk
  intro P s hb hr
  obtain ⟨o, ho⟩ := exists_fpeWalk_eq_some P.roundF s.regs.x s.regs.n s.regs.key s.regs.walkLimit
  refine ⟨o, ho, fun evs ha => ?_, _, exec_idle .fpe hb, fun m hm => fpe_busy ho hm⟩
  rw [Nat.add_comm]
  exact runWith_legalWord hb hr decode_three
    (fpe_hasOutcome (s := s.withAgenda (List.replicate (fpeTurns s.regs.n o) .engine ++ evs)) ho) ha

/-- With nothing else to come, the machine's steps are the engine's (20_memory.md R66). -/
theorem runWith_nil (P : Params) {s : State} (ha : s.bus.agenda = []) (m : Nat) :
    runWith P m s = .next (engineSteps P m s) := by
  induction m generalizing s with
  | zero => rfl
  | succ m ih =>
    rw [runWith_step (stepWith_nil ha), ih (by rw [engineStep_bus, ha]), engineSteps]

/-- An FPE command with nothing else to come ends with FPEWALK's outcome. -/
theorem runWith_fpe {P : Params} {s : State} {o : WalkOutcome} (hb : s.regs.status.busy = false)
    (hr : s.bus.resetIn = false) (ha : s.bus.agenda = [.access (.write 0x00 8 0x3)])
    (h : fpeWalk P.roundF s.regs.x s.regs.n s.regs.key s.regs.walkLimit = some o) :
    ∃ t, runWith P (fpeTurns s.regs.n o + 1) s = .next t ∧ t.regs = outcomeRegs s.regs o := by
  have hstep : stepWith P s = .next (actOf .fpe (s.withAgenda [])) :=
    (stepWith_legalWord hr ha decode_three).trans (exec_idle .fpe hb)
  have ho := fpe_hasOutcome (P := P) (s := s.withAgenda []) h
  refine ⟨_, (runWith_step hstep _).trans (runWith_nil P ?_ _), ho.regs⟩
  rw [actOf_bus]
  rfl

/-- Settles O30: both commands end with the one outcome of their operands. -/
theorem fpeIsDeterministic : Obligations.FpeIsDeterministic := by
  unfold Obligations.FpeIsDeterministic
  intro P s s' hb hr hb' hr' ha ha' hx hn hk hlimit
  obtain ⟨o, ho⟩ := exists_fpeWalk_eq_some P.roundF s.regs.x s.regs.n s.regs.key s.regs.walkLimit
  obtain ⟨t, hrun, ht⟩ := runWith_fpe hb hr ha ho
  obtain ⟨t', hrun', ht'⟩ := runWith_fpe (P := P) (o := o) hb' hr' ha' (by rw [hx, hn, hk, hlimit, ho])
  refine ⟨_, t, t', hrun, hn ▸ hrun', ?_⟩
  rw [ht, ht']
  cases o <;> simp [outcomeRegs]

end Sys2Proof.Machine
end

/-! # Illegal words, and the order of the conditions on an access (60_exceptions.md R201, R210) -/

section
namespace Sys2Proof.Machine

/-- The words that R201 calls ILLEGAL do not decode. -/
theorem exists_decode_eq_error {v : Word}
    (h : 4 ≤ opField v ∨ reservedSet v = true ∨ (opField v ≠ 2 ∧ (lbField v ≠ 0 ∨ rbField v ≠ 0))) :
    ∃ e, decode v = .error e := by
  cases hd : decode v with
  | error e => exact ⟨e, rfl⟩
  | ok i =>
    obtain ⟨hres, hop, hlb, hrb⟩ := decode_eq_ok_iff.1 hd
    rw [hop, hres, hlb, hrb] at h
    obtain h | h | ⟨hne, hwidth⟩ := h
    · exact absurd h i.opcode_lt.not_ge
    · cases h
    · cases i with
      | feistel lb rb => exact absurd rfl hne
      | nop | mix | fpe => simp [Instr.widths] at hwidth

theorem reservedSet_iff {v : Word} :
    reservedSet v = true ↔ v.extractLsb' 4 4 ≠ 0 ∨ v.getLsbD 15 = true ∨ v.extractLsb' 23 41 ≠ 0 := by
  simp [reservedSet, or_assoc]

theorem hostAccess_illegalWord {v : Word} {s : State} (hb : s.regs.status.busy = false)
    (h : ∃ e, decode v = .error e) :
    hostAccess (.write 0x00 8 v) s = .next (completeError .illegalCmd 0 (accept s)) := by
  obtain ⟨e, he⟩ := h
  rw [hostAccess_writeCmd, command_illegal hb he, illegalCommand]

theorem hostAccess_legalWord {v : Word} {i : Instr} {s : State} (hb : s.regs.status.busy = false)
    (h : decode v = .ok i) : hostAccess (.write 0x00 8 v) s = .next (actOf i s) := by
  rw [hostAccess_writeCmd, command_legal s h, exec_idle i hb]

/-- Settles O4: such a word does not decode, and an illegal word completes in its CMD write. -/
theorem illegalWordCompletesWithError : Obligations.IllegalWordCompletesWithError := by
  unfold Obligations.IllegalWordCompletesWithError
  intro v s hb h
  have hill : ∃ e, decode v = .error e := by
    apply exists_decode_eq_error
    rw [reservedSet_iff]
    obtain hop | h4 | h15 | h23 | ⟨hop, hwidth⟩ := h
    · exact .inl hop
    · exact .inr (.inl (.inl h4))
    · exact .inr (.inl (.inr (.inl h15)))
    · exact .inr (.inl (.inr (.inr h23)))
    · exact .inr (.inr ⟨hop, hwidth.imp BitVec.toNat_ne_iff_ne.2 BitVec.toNat_ne_iff_ne.2⟩)
  rw [hostAccess_illegalWord hb hill]
  rfl

/-- Settles O42: one clause for each branch of a host access, in the order of R210. -/
theorem conditionPriority : Obligations.ConditionPriority := by
  unfold Obligations.ConditionPriority
  intro s v
  refine ⟨fun off width h => ?bus, fun hb => ?busy, fun hb => ⟨fun hd => ?nop, fun hill => ?illegal,
    fun lb rb hd hbad => ?badWidth, fun hd hn => ?nZero, fun hd hn hx => ?inputRange⟩⟩
  case bus =>
    obtain ⟨hread, -⟩ := windowReads s
    obtain ⟨hwrite, -⟩ := windowWrites s v
    exact ⟨hread off width h, hwrite off width h⟩
  case busy => exact (hostAccess_writeCmd v s).trans (command_busy v hb)
  case nop => exact hostAccess_legalWord hb hd
  case illegal => exact ⟨_, hostAccess_illegalWord hb hill, rfl⟩
  case badWidth =>
    refine ⟨_, hostAccess_legalWord hb hd, ?_⟩
    rw [actOf_feistel_illegal (by omega)]
    rfl
  case nZero =>
    refine ⟨_, hostAccess_legalWord hb hd, ?_⟩
    rw [actOf_fpe_nZero (by rw [hn]; rfl)]
    rfl
  case inputRange =>
    refine ⟨_, hostAccess_legalWord hb hd, ?_⟩
    rw [actOf_fpe_inputRange (BitVec.toNat_ne_iff_ne.2 hn) hx]
    rfl

end Sys2Proof.Machine
end

/-! # What stops the machine (60_exceptions.md R206, 70_reset_and_hazards.md R230, R232) -/

section
namespace Sys2Proof.Machine

/-! ## The steps of a machine at a reset edge or held in reset -/

section edges
variable {P : Params} {s : State} {evs : List Event}

theorem stepWith_resetAssert (h : s.bus.agenda = .resetAssert :: evs) :
    stepWith P s = .next ((applyReset (s.withAgenda evs)).withResetIn true) := by
  simp only [stepWith, runNext, h, runEvent]

theorem stepWith_resetRelease (h : s.bus.agenda = .resetRelease :: evs) :
    stepWith P s = .next ((s.withAgenda evs).withResetIn false) := by
  simp only [stepWith, runNext, h, runEvent]

theorem stepWith_access_inReset {a : Access} (hr : s.bus.resetIn = true)
    (h : s.bus.agenda = .access a :: evs) : stepWith P s = .refused (.accessDuringReset a) := by
  simp only [stepWith, runNext, h, runEvent]
  exact if_pos hr

end edges

/-! ## Faults -/

/-- An access that the bus refuses, whether a read or a write (20_memory.md R54, R55). -/
theorem Access.legal_eq_false_iff {a : Access} :
    a.legal = false ↔
      (∃ off width, a = .read off width ∧ (width ≠ 8 ∨ off % 8 ≠ 0 ∨ 0x80 ≤ off)) ∨
      ∃ off width v, a = .write off width v ∧ (width ≠ 8 ∨ off % 8 ≠ 0 ∨ 0x80 ≤ off) := by
  cases a <;> simp [Access.legal, legalAt_eq_false_iff]

/-- A step that faults is a host access with the reset input released. -/
theorem access_of_stepWith_fault {P : Params} {s : State} {f : Fault} (h : stepWith P s = .fault f) :
    ∃ a evs, s.bus.agenda = .access a :: evs ∧ s.bus.resetIn = false ∧
      hostAccess a (s.withAgenda evs) = .fault f := by
  cases ha : s.bus.agenda with
  | nil => simp [stepWith_nil ha] at h
  | cons ev evs =>
    cases ev with
    | engine => simp [stepWith_engine ha] at h
    | resetAssert => simp [stepWith_resetAssert ha] at h
    | resetRelease => simp [stepWith_resetRelease ha] at h
    | access a =>
      cases hr : s.bus.resetIn with
      | true => simp [stepWith_access_inReset hr ha] at h
      | false => exact ⟨a, evs, rfl, rfl, (stepWith_access hr ha).symm.trans h⟩

/-- Settles O41: only a host access faults, and only on the bus. -/
theorem onlyBusErrorsFault : Obligations.OnlyBusErrorsFault := by
  unfold Obligations.OnlyBusErrorsFault
  intro P s f
  constructor
  · intro h
    obtain ⟨a, evs, ha, hr, hacc⟩ := access_of_stepWith_fault h
    obtain ⟨hlegal, hf⟩ := hostAccess_fault hacc
    exact ⟨a, evs, ha, hr, hf, Access.legal_eq_false_iff.1 hlegal⟩
  · rintro ⟨a, evs, ha, hr, rfl, hbad⟩
    rw [stepWith_access hr ha, hostAccess_illegal (Access.legal_eq_false_iff.2 hbad)]

/-! ## Legal hosts -/

/-- A legal access gives a next state, and leaves what is to come and the reset input as they are. -/
theorem hostAccess_legal {a : Access} (ha : a.legal = true) (s : State) :
    ∃ t, hostAccess a s = .next t ∧ t.bus.agenda = s.bus.agenda ∧ t.bus.resetIn = s.bus.resetIn := by
  obtain ⟨hl, -⟩ | ⟨off, -, -, h⟩ | ⟨off, v, -, -, h⟩ := hostAccess_cases (a := a) (s := s) rfl
  · simp [ha] at hl
  · exact ⟨_, h, rfl, rfl⟩
  · obtain ⟨t, ht⟩ := hostWrite_next off v s
    have hbus := hostWrite_bus ht
    exact ⟨t, h.trans ht, by rw [hbus], by rw [hbus]⟩

/-- With a legal host the machine steps, and the rest of the agenda is a legal host's again. -/
theorem stepWith_agendaLegal (P : Params) {s : State}
    (h : agendaLegal s.bus.resetIn s.bus.agenda = true) :
    ∃ t, stepWith P s = .next t ∧ agendaLegal t.bus.resetIn t.bus.agenda = true := by
  cases ha : s.bus.agenda with
  | nil => exact ⟨_, stepWith_nil ha, by rw [engineStep_bus, ha, agendaLegal_nil]⟩
  | cons ev evs =>
    rw [ha] at h
    cases ev with
    | engine => exact ⟨_, stepWith_engine ha, by rw [engineStep_bus]; exact h⟩
    | resetAssert => exact ⟨_, stepWith_resetAssert ha, h⟩
    | resetRelease => exact ⟨_, stepWith_resetRelease ha, h⟩
    | access a =>
      obtain ⟨⟨hr, hlegal⟩, hevs⟩ :
          (s.bus.resetIn = false ∧ a.legal = true) ∧ agendaLegal s.bus.resetIn evs = true := by
        simpa using h
      obtain ⟨t, ht, hta, htr⟩ := hostAccess_legal hlegal (s.withAgenda evs)
      exact ⟨t, (stepWith_access hr ha).trans ht, by rw [hta, htr]; exact hevs⟩

/-- Settles O59: every step leaves a legal host, so no step of a run stops. -/
theorem legalHostNeverStops : Obligations.LegalHostNeverStops := by
  unfold Obligations.LegalHostNeverStops
  intro P s h m
  induction m generalizing s with
  | zero => exact ⟨s, rfl⟩
  | succ m ih =>
    obtain ⟨u, hu, hlegal⟩ := stepWith_agendaLegal P h
    rw [runWith_step hu]
    exact ih u hlegal

end Sys2Proof.Machine
end

/-! # A walk that reaches its cap (43_cycle_walk.md R177, 60_exceptions.md R205) -/

section
namespace Sys2Proof.Machine

/-- The loop ends at the cap when all the applications up to it are at or above `n`. -/
theorem walkLoop_exhausted {F : Word → Word → Word} {n k limit : Word} {lb rb fuel i : Nat} {w it : Word}
    (h1 : 1 ≤ i) (hfuel : i ≤ fuel) (hcap : it.toNat + i = limit.toNat)
    (hout : ∀ j, 1 ≤ j → j ≤ i → n.toNat ≤ (feistel4Iter F lb rb k j w).toNat) :
    walkLoop F n k limit lb rb fuel w it = some (.error .walkExhausted limit) := by
  induction fuel generalizing i w it with
  | zero => omega
  | succ fuel ih =>
    have hone : ¬ feistel4 F w lb rb k < n := BitVec.not_lt.2 (BitVec.le_def.2 (hout 1 le_rfl h1))
    have hiter : (it + 1).toNat = it.toNat + 1 :=
      BitVec.toNat_add_of_lt (show it.toNat + 1 < 2 ^ 64 by omega)
    obtain ⟨i, rfl⟩ := Nat.exists_eq_add_of_le' h1
    rw [walkLoop, if_neg hone]
    obtain rfl | hpos := Nat.eq_zero_or_pos i
    · have hlast : it + 1 = limit := BitVec.eq_of_toNat_eq (hiter.trans hcap)
      have hlimit : limit ≠ 0 := fun h0 => by simp [h0] at hcap
      rw [if_pos ⟨hlimit, hlast⟩, hlast]
    · have hgo : it + 1 ≠ limit := fun h => by rw [← h, hiter] at hcap; omega
      rw [if_neg fun h => hgo h.2]
      exact ih hpos (by omega) (by omega) fun j hj hle => hout (j + 1) (by omega) (by omega)

/-- A cap with every application up to it outside lies within the bound of R181, so FPEWALK sees it. -/
theorem fpeWalk_exhausted {F : Word → Word → Word} {x n k limit : Word} (hn : 2 ≤ n.toNat)
    (hx : x.toNat < n.toNat) (hlimit : limit ≠ 0)
    (hout : ∀ i, 1 ≤ i → i ≤ limit.toNat →
      n.toNat ≤ (feistel4Iter F (widths n.toNat).1 (widths n.toNat).2 k i x).toNat) :
    fpeWalk F x n k limit = some (.error .walkExhausted limit) := by
  have hcount := walk_count_le (widths_le n.toNat) (widths_sum n.toNat) hx hout
  have hpos : 1 ≤ limit.toNat := Nat.pos_of_ne_zero (BitVec.toNat_ne_iff_ne.2 hlimit)
  rw [fpeWalk_eq_walkLoop hn hx]
  exact walkLoop_exhausted hpos (by omega) (Nat.zero_add _) hout

/-- Settles O15: the command ends with the outcome of FPEWALK, which is the exhausted cap. -/
theorem walkCapExhausts : Obligations.WalkCapExhausts := by
  unfold Obligations.WalkCapExhausts
  intro P s evs hb hr hn hx hlimit hout ha
  have ho := fpe_hasOutcome (P := P)
    (s := s.withAgenda (List.replicate (4 * s.regs.walkLimit.toNat) .engine ++ evs))
    (fpeWalk_exhausted hn hx hlimit hout)
  rw [Nat.add_comm]
  exact runWith_legalWord hb hr decode_three ho ha

end Sys2Proof.Machine
end

/-! # Completion and the interrupt (60_exceptions.md R208, R220) -/

section
namespace Sys2Proof.Machine

/-- The engine has completed its command, and the host has not yet acknowledged it (40_command.md R105,
R106). -/
structure Completed (s : State) : Prop where
  idle : s.eng.fsm = .idle
  busy : s.regs.status.busy = false
  done : s.regs.status.done = true

/-- The engine stops running only by completing. -/
theorem EngineEffect.completed_of_idle {P : Params} {s t : State} (h : EngineEffect P s t)
    (hrun : s.eng.fsm ≠ .idle) (hidle : t.eng.fsm = .idle) : Completed t := by
  cases h with
  | idle | advanced => exact absurd hidle hrun
  | completed | exhausted => exact ⟨rfl, rfl, rfl⟩

/-! ## Progress of the rounds -/

/-- The rounds that the running command has behind it (R146). -/
def roundsDone (e : Engine) : Nat := 4 * e.iter.toNat + e.round

/-- FEISTEL has four rounds, and a walk at most `2^63` applications (R181). -/
theorem roundsDone_lt {P : Params} {s : State} (hinv : Inv s) (h : WalkInv P s)
    (hf : s.eng.fsm = .rounds) : roundsDone s.eng < 4 * 2 ^ 63 := by
  have hround := hinv.round_le
  unfold roundsDone
  obtain hop | hop := hinv.rounds_op hf
  · obtain ⟨-, -, -, hiter⟩ := hinv.feistel_rounds hf hop
    have hiter : s.eng.iter.toNat = 0 := by rw [hiter]; rfl
    omega
  · obtain ⟨hle, hsum, hn, hx, -⟩ := hinv.fpe_rounds hf hop
    have hcount := walk_count_le hle hsum hx (h.outside_so_far hf hop)
    obtain ⟨-, hbound, -⟩ := walkEndsWithinBound
    obtain ⟨-, hmax⟩ := hbound s.eng.n.toNat hn s.eng.n.isLt
    omega

/-- A step that does not end the rounds is one more of them. -/
theorem roundsDone_engineStep {P : Params} {s : State} (hinv : Inv s) (h : WalkInv P s)
    (hf : s.eng.fsm = .rounds) (hrun : (engineStep P s).eng.fsm ≠ .idle) :
    (engineStep P s).eng.fsm = .rounds ∧
      roundsDone (engineStep P s).eng = roundsDone s.eng + 1 := by
  rw [engineStep_rounds hf] at hrun ⊢
  by_cases hr : s.eng.round < 3
  · rw [stepRound_early hr]
    exact ⟨hf, rfl⟩
  obtain hop | hop := hinv.rounds_op hf
  · rw [stepRound_feistel hr hop] at hrun
    exact absurd rfl hrun
  · rw [stepRound_walk hr (by simp [hop])] at hrun ⊢
    obtain ⟨-, hc⟩ | ⟨-, -, -, hc⟩ | ⟨-, -, hc⟩ := walkCheck_cases (afterApplication P s) <;>
      rw [hc] at hrun ⊢
    · exact absurd rfl hrun
    · exact absurd rfl hrun
    · have hiter : (afterApplication P s).eng.iter.toNat = s.eng.iter.toNat + 1 :=
        h.iter_add_one_toNat hinv hf hop
      have hround : (afterApplication P s).eng.round = 0 := rfl
      have := hinv.round_le
      refine ⟨hf, ?_⟩
      unfold roundsDone
      omega

/-- Rounds end within what is left of R181's bound. -/
theorem exists_completed_of_rounds {P : Params} {left : Nat} {s : State} (hinv : Inv s)
    (h : WalkInv P s) (hf : s.eng.fsm = .rounds) (hleft : 4 * 2 ^ 63 ≤ roundsDone s.eng + left) :
    ∃ m, m ≤ left ∧ Completed (engineSteps P m s) := by
  induction left generalizing s with
  | zero => exact absurd (roundsDone_lt hinv h hf) hleft.not_gt
  | succ left ih =>
    have heffect := engineStep_effect P s
    by_cases hend : (engineStep P s).eng.fsm = .idle
    · exact ⟨1, by omega, heffect.completed_of_idle (by simp [hf]) hend⟩
    · obtain ⟨hf', hdone⟩ := roundsDone_engineStep hinv h hf hend
      obtain ⟨m, hm, hcomp⟩ := ih (heffect.inv hinv) (h.engineStep hinv) hf' (by omega)
      exact ⟨m + 1, by omega, hcomp⟩

/-- A running engine completes: MIX and IDENT in one step, the rounds within their bound. -/
theorem exists_completed {P : Params} {s : State} (hinv : Inv s) (h : WalkInv P s)
    (hrun : s.eng.fsm ≠ .idle) : ∃ m, m ≤ 4 * 2 ^ 63 ∧ Completed (engineSteps P m s) := by
  obtain ⟨hf, -⟩ | ⟨-, he⟩ | ⟨-, he⟩ | ⟨hf, -⟩ := engineStep_cases P s
  · exact absurd hf hrun
  · exact ⟨1, by omega, by rw [engineSteps, he]; exact ⟨rfl, rfl, rfl⟩⟩
  · exact ⟨1, by omega, by rw [engineSteps, he]; exact ⟨rfl, rfl, rfl⟩⟩
  · exact exists_completed_of_rounds hinv h hf (Nat.le_add_left _ _)

/-- Settles O58: with no event to come the machine's steps are the engine's, and a busy engine runs. -/
theorem busyEngineCompletes : Obligations.BusyEngineCompletes := by
  unfold Obligations.BusyEngineCompletes
  intro P s hinv h hb ha
  obtain ⟨m, hm, hcomp⟩ := exists_completed hinv h (hinv.busy_iff_running.1 hb)
  exact ⟨m, _, hm, runWith_nil P ha m, hcomp.idle, hcomp.busy, hcomp.done⟩

/-! ## The interrupt -/

theorem irq_eq_ie {s : State} (h : s.regs.status.done = true) : irq s = s.regs.ie := by
  rw [irq, h, Bool.and_true]

theorem irq_eq_false_of_not_done {s : State} (h : s.regs.status.done = false) : irq s = false := by
  rw [irq, h, Bool.and_false]

/-- A command's acceptance drops `irq` while the command runs; a failed check raises DONE again. -/
theorem irq_actOf {i : Instr} (s : State) (hi : i ≠ .nop) :
    ((actOf i s).regs.status.busy = true → irq (actOf i s) = false) ∧
      ((actOf i s).regs.status.busy = false →
        (actOf i s).regs.status.err = true ∧ irq (actOf i s) = s.regs.ie) := by
  obtain ⟨hnop, -⟩ | ⟨-, c, hact⟩ | hstart := actOf_cases i s
  · exact absurd hnop hi
  · rw [hact]
    exact ⟨nofun, fun _ => ⟨rfl, irq_eq_ie rfl⟩⟩
  · have hdone : (actOf i s).regs.status.done = false := by rw [hstart.regs]; rfl
    have hbusy : (actOf i s).regs.status.busy = true := by rw [hstart.regs]
    exact ⟨fun _ => irq_eq_false_of_not_done hdone, fun hb => by simp [hbusy] at hb⟩

/-- Settles O43: each clause by what it does to DONE and IE. -/
theorem interruptLevel : Obligations.InterruptLevel := by
  unfold Obligations.InterruptLevel
  refine ⟨fun _ => rfl, rfl, fun P s hrun hidle => ?completion, fun v s hv => ?clear,
    fun i s hb hi => ⟨_, exec_idle i hb, irq_actOf s hi⟩, fun s hb => ⟨_, exec_idle .nop hb, rfl⟩,
    fun v s hv => ?mask⟩
  case completion =>
    have heffect := engineStep_effect P s
    have hdone := (heffect.completed_of_idle hrun hidle).done
    obtain ⟨hie, -⟩ := heffect.sameHostWritten
    exact ⟨hdone, (irq_eq_ie hdone).trans hie⟩
  case clear =>
    have hdone : (writeReg .status v s).regs.status.done = false := by
      simp [writeReg, statusAfterWrite, hv]
    exact ⟨_, hostAccess_writeReg (r := .status) nofun v s, irq_eq_false_of_not_done hdone⟩
  case mask =>
    have hie : (writeReg .ctrl v s).regs.ie = false := hv
    exact ⟨_, hostAccess_writeReg (r := .ctrl) nofun v s, by rw [irq, hie, Bool.false_and], rfl⟩

end Sys2Proof.Machine
end

/-! # Reset (70_reset_and_hazards.md R230, R232) -/

section
namespace Sys2Proof.Machine

/-- Settles O51: the step is `applyReset` under a raised reset input; DONE at reset is 0, so `irq` drops. -/
theorem resetSetsEverything : Obligations.ResetSetsEverything := by
  unfold Obligations.ResetSetsEverything
  intro P s evs ha
  have hdone : ((applyReset (s.withAgenda evs)).withResetIn true).regs.status.done = false := rfl
  exact ⟨_, stepWith_resetAssert ha, rfl, rfl, hdone, irq_eq_false_of_not_done hdone⟩

/-- Settles O52: one step rule for each of the three events. -/
theorem accessDuringResetIsRefused : Obligations.AccessDuringResetIsRefused := by
  unfold Obligations.AccessDuringResetIsRefused
  refine fun P s evs => ⟨fun hassert => ?assert, fun a hr haccess => ?access, fun hrelease => ?release⟩
  case assert => exact ⟨_, stepWith_resetAssert hassert, rfl⟩
  case access => exact stepWith_access_inReset hr haccess
  case release => exact stepWith_resetRelease hrelease

end Sys2Proof.Machine
end
